-- ==== Sys2Proof/Word.lean ====
section
/-! DEFINITION. The machine's words (spec/00_scope.md R4): every register, memory cell, `pc`, `ir`,
`fl`, `sp` and operand is an unsigned 8-bit value, and a general register has an index 0 to 7.  The
two constants of R2 that fix these types stand here; the others in Config.lean. -/

namespace Sys2Proof

/-- `XLEN` of R2: the width in bits of every register, memory cell and operand. -/
@[simp] abbrev Config.xlen : Nat := 8

/-- `NREGS` of R2: the number of general registers. -/
@[simp] abbrev Config.nregs : Nat := 8

/-- A `u8` of R4: `XLEN` bits, numbered 7 (most significant) down to 0. -/
abbrev Byte := BitVec Config.xlen

/-- The index of one of the `NREGS` general registers `R[0]` to `R[7]` (R10). -/
abbrev RegIdx := Fin Config.nregs

end Sys2Proof
end

