-- ==== Sys2Proof/Config.lean ====
section
/-! DEFINITION. What is fixed for one machine: the named constants of R2 and the two parameters R3
leaves to the implementation, the opcode map and the instruction limit.  `XLEN` and `NREGS` of R2 stand
in Word.lean, its flag bit positions in Machine/Flags.lean and the opcode values of R64 in Decode.lean,
beside what uses them. -/

namespace Sys2Proof

/-- `MEMSIZE` of R2: the number of memory cells, addresses 0x00 to 0xFF (R40). -/
abbrev Config.memSize : Nat := 256

/-- `PC_RESET` of R2: `pc` after reset and the load address of the image. -/
def Config.pcReset : Byte := 0x00#8

/-- `SP_RESET` of R2: `sp` after reset (R20). -/
def Config.spReset : Byte := 0xF4#8

/-- `IMAGE_MAX` of R2: the largest image `load_image` accepts, in bytes (R52). -/
abbrev Config.imageMax : Nat := 256

/-- `ARITY_HI` of R2: the high bit of the operand count in an opcode byte. -/
abbrev Config.arityHi : Nat := 7

/-- `ARITY_LO` of R2: the low bit of the operand count in an opcode byte. -/
abbrev Config.arityLo : Nat := 6

/-- The operand count an opcode byte announces, bits `ARITY_HI` down to `ARITY_LO`: `n = ir[7:6]` (R61). -/
def arityOf (op : Byte) : Nat := (op.extractLsb Config.arityHi Config.arityLo).toNat

/-- `OPCODE_MAP` of R3: the byte value of each of the 16 opcodes.  Plain data; the conditions of R65
are `OpcodeMap.wf` in WellFormed.lean. -/
structure OpcodeMap where
  ldi : Byte
  prn : Byte
  mul : Byte
  add : Byte
  and : Byte
  cmp : Byte
  inc : Byte
  dec : Byte
  push : Byte
  pop : Byte
  call : Byte
  ret : Byte
  jmp : Byte
  jeq : Byte
  jne : Byte
  hlt : Byte
deriving DecidableEq, Repr

/-- The two parameters of R3.  No step writes them. -/
structure Config where
  /-- `OPCODE_MAP`: the byte value of each opcode (R64, R65). -/
  opcodes : OpcodeMap
  /-- `MAX_INSTRUCTIONS`: no limit, or the number of steps after which no step is taken (R88). -/
  maxInstructions : Option Nat
deriving DecidableEq, Repr

end Sys2Proof
end

