-- ==== Sys2Proof/Syntax.lean ====
section
/-! DEFINITION. The instruction set: exactly the 16 instructions of R64, one constructor for each row
of spec/opcode_table.json.  An operand is kept as the byte that stands in memory: which register it
selects, or that it is a literal, is said in Machine/Operands.lean (R67, R68), so no bit of an
encoding is lost in the term. -/

namespace Sys2Proof

/-- An instruction of R64 with its operand bytes, operand A first (R45, R60). -/
inductive Instr where
  /-- `LDI Ra,imm`, format RI (R100). -/
  | ldi (opA opB : Byte)
  /-- `PRN Ra`, format R (R102). -/
  | prn (opA : Byte)
  /-- `MUL Ra,Rb`, format RR (R112). -/
  | mul (opA opB : Byte)
  /-- `ADD Ra,Rb`, format RR (R113). -/
  | add (opA opB : Byte)
  /-- `AND Ra,Rb`, format RR (R114). -/
  | and (opA opB : Byte)
  /-- `CMP Ra,Rb`, format RR (R116). -/
  | cmp (opA opB : Byte)
  /-- `INC Ra`, format R (R117). -/
  | inc (opA : Byte)
  /-- `DEC Ra`, format R (R118). -/
  | dec (opA : Byte)
  /-- `PUSH Ra`, format R (R130). -/
  | push (opA : Byte)
  /-- `POP Ra`, format R (R131). -/
  | pop (opA : Byte)
  /-- `CALL Ra`, format R (R140). -/
  | call (opA : Byte)
  /-- `RET`, format Z (R142). -/
  | ret
  /-- `JMP Ra`, format R (R144). -/
  | jmp (opA : Byte)
  /-- `JEQ Ra`, format R (R146). -/
  | jeq (opA : Byte)
  /-- `JNE Ra`, format R (R148). -/
  | jne (opA : Byte)
  /-- `HLT`, format Z (R160). -/
  | hlt
deriving DecidableEq, Repr

/-- The 16 mnemonics of R64, in the order of its table. -/
inductive Mnemonic where
  | ldi | prn | mul | add | and | cmp | inc | dec
  | push | pop | call | ret | jmp | jeq | jne | hlt
deriving DecidableEq, Repr

/-- Every mnemonic, in the order of R64's table. -/
def Mnemonic.all : List Mnemonic :=
  [.ldi, .prn, .mul, .add, .and, .cmp, .inc, .dec,
   .push, .pop, .call, .ret, .jmp, .jeq, .jne, .hlt]

/-- The operand count SCA gives each instruction: formats Z, R, and RR or RI of R62. -/
def Mnemonic.arity : Mnemonic → Nat
  | .ret | .hlt => 0
  | .prn | .inc | .dec | .push | .pop | .call | .jmp | .jeq | .jne => 1
  | .ldi | .mul | .add | .and | .cmp => 2

/-- The mnemonic of an instruction. -/
def Instr.mnemonic : Instr → Mnemonic
  | .ldi _ _ => .ldi
  | .prn _ => .prn
  | .mul _ _ => .mul
  | .add _ _ => .add
  | .and _ _ => .and
  | .cmp _ _ => .cmp
  | .inc _ => .inc
  | .dec _ => .dec
  | .push _ => .push
  | .pop _ => .pop
  | .call _ => .call
  | .ret => .ret
  | .jmp _ => .jmp
  | .jeq _ => .jeq
  | .jne _ => .jne
  | .hlt => .hlt

/-- The number of operand bytes of an instruction (R61). -/
def Instr.arity (i : Instr) : Nat := i.mnemonic.arity

/-- The byte value an opcode map gives a mnemonic (R64). -/
def OpcodeMap.value (m : OpcodeMap) : Mnemonic → Byte
  | .ldi => m.ldi
  | .prn => m.prn
  | .mul => m.mul
  | .add => m.add
  | .and => m.and
  | .cmp => m.cmp
  | .inc => m.inc
  | .dec => m.dec
  | .push => m.push
  | .pop => m.pop
  | .call => m.call
  | .ret => m.ret
  | .jmp => m.jmp
  | .jeq => m.jeq
  | .jne => m.jne
  | .hlt => m.hlt

/-- All 16 values of a map, in the order of R64's table. -/
def OpcodeMap.values (m : OpcodeMap) : List Byte := Mnemonic.all.map m.value

end Sys2Proof
end

