-- ==== Sys2Proof/WellFormed.lean ====
section
/-! DEFINITION. The well-formedness checks of the spec: on an opcode map (R65) and on the register
operand bytes of an instruction (R67).  The core refuses no instruction for failing the second check:
R67 gives the bytes 0x08 to 0xFF their meaning, and so do the meanings of this model. -/

namespace Sys2Proof

/-- Condition (a) of R65: the 16 values are pairwise distinct. -/
def OpcodeMap.distinct (m : OpcodeMap) : Bool := decide m.values.Nodup

/-- Condition (b) of R65: bits 7:6 of each value are the operand count of its instruction. -/
def OpcodeMap.aritiesAgree (m : OpcodeMap) : Bool :=
  Mnemonic.all.all fun n => arityOf (m.value n) == n.arity

/-- R65: what every opcode map must satisfy, whatever its byte values. -/
def OpcodeMap.wf (m : OpcodeMap) : Bool := m.distinct && m.aritiesAgree

/-- A configuration is well formed when its opcode map is; every instruction limit is (R3). -/
def Config.wf (c : Config) : Bool := c.opcodes.wf

/-- "Well-formed programs use 0x00 to 0x07" for a register operand (R67). -/
def regOperandWf (b : Byte) : Bool := decide (b.toNat < Config.nregs)

/-- Every register operand byte of the instruction is below 8 (R67); a literal is unrestricted (R68). -/
def Instr.wf : Instr → Bool
  | .ldi a _ => regOperandWf a
  | .mul a b | .add a b | .and a b | .cmp a b => regOperandWf a && regOperandWf b
  | .prn a | .inc a | .dec a | .push a | .pop a | .call a | .jmp a | .jeq a | .jne a => regOperandWf a
  | .ret | .hlt => true

/-- The register operand byte with bits 7:3 cleared: the well-formed spelling of its register (R67). -/
def canonicalOperand (b : Byte) : Byte := BitVec.ofNat Config.xlen (b.toNat % Config.nregs)

/-- The instruction with bits 7:3 of its register operand bytes cleared: the one spelling of its
registers that is well formed (R67). -/
def Instr.canonical : Instr → Instr
  | .ldi a b => .ldi (canonicalOperand a) b
  | .prn a => .prn (canonicalOperand a)
  | .mul a b => .mul (canonicalOperand a) (canonicalOperand b)
  | .add a b => .add (canonicalOperand a) (canonicalOperand b)
  | .and a b => .and (canonicalOperand a) (canonicalOperand b)
  | .cmp a b => .cmp (canonicalOperand a) (canonicalOperand b)
  | .inc a => .inc (canonicalOperand a)
  | .dec a => .dec (canonicalOperand a)
  | .push a => .push (canonicalOperand a)
  | .pop a => .pop (canonicalOperand a)
  | .call a => .call (canonicalOperand a)
  | .ret => .ret
  | .jmp a => .jmp (canonicalOperand a)
  | .jeq a => .jeq (canonicalOperand a)
  | .jne a => .jne (canonicalOperand a)
  | .hlt => .hlt

end Sys2Proof
end

