-- ==== Sys2Proof/Decode.lean ====
section
/-! DEFINITION. The decoder, total on any bytes, and after it the encoder, both over an opcode map
(R3, R65); the byte values of R64 are `standardOpcodes`. -/

namespace Sys2Proof

/-- The opcode values of R64.  They are not in SCA: decision D1 adopts the public LS-8 assignments
(PRESUMED, log entry 1). -/
def standardOpcodes : OpcodeMap :=
  { ldi := 0x82#8, prn := 0x47#8, mul := 0xA2#8, add := 0xA0#8
    and := 0xA8#8, cmp := 0xA7#8, inc := 0x65#8, dec := 0x66#8
    push := 0x45#8, pop := 0x46#8, call := 0x50#8, ret := 0x11#8
    jmp := 0x54#8, jeq := 0x55#8, jne := 0x56#8, hlt := 0x01#8 }

/-- Why the decoder gives no instruction. -/
inductive DecodeReject where
  /-- The byte list is empty.  Never the case in a step: memory always has the opcode byte (R83). -/
  | noBytes
  /-- The first byte is not one of the 16 opcode values (R69). -/
  | unknownOpcode (op : Byte)
  /-- The list ends before the operand bytes the opcode needs.  Never the case in a step (R83, D6). -/
  | truncated (op : Byte)
deriving DecidableEq, Repr

/-- The mnemonic of an opcode byte: an exact match of the whole byte against the 16 values (R66). -/
def OpcodeMap.find (m : OpcodeMap) (op : Byte) : Option Mnemonic :=
  Mnemonic.all.find? fun n => m.value n == op

/-- Format Z of R62: no operand byte. -/
def takeZero (i : Instr) (bytes : List Byte) : Except DecodeReject (Instr × List Byte) :=
  .ok (i, bytes)

/-- Format R of R62: one operand byte after the opcode. -/
def takeOne (op : Byte) (f : Byte → Instr) : List Byte → Except DecodeReject (Instr × List Byte)
  | a :: rest => .ok (f a, rest)
  | [] => .error (.truncated op)

/-- Formats RR and RI of R62: operand A, then operand B. -/
def takeTwo (op : Byte) (f : Byte → Byte → Instr) :
    List Byte → Except DecodeReject (Instr × List Byte)
  | a :: b :: rest => .ok (f a b, rest)
  | [_] | [] => .error (.truncated op)

/-- Reads the operand bytes of a known opcode in its format (R62). -/
def takeOperands (op : Byte) (n : Mnemonic) (bytes : List Byte) :
    Except DecodeReject (Instr × List Byte) :=
  match n with
  | .ldi => takeTwo op .ldi bytes
  | .prn => takeOne op .prn bytes
  | .mul => takeTwo op .mul bytes
  | .add => takeTwo op .add bytes
  | .and => takeTwo op .and bytes
  | .cmp => takeTwo op .cmp bytes
  | .inc => takeOne op .inc bytes
  | .dec => takeOne op .dec bytes
  | .push => takeOne op .push bytes
  | .pop => takeOne op .pop bytes
  | .call => takeOne op .call bytes
  | .ret => takeZero .ret bytes
  | .jmp => takeOne op .jmp bytes
  | .jeq => takeOne op .jeq bytes
  | .jne => takeOne op .jne bytes
  | .hlt => takeZero .hlt bytes

/-- The instruction at the head of a byte list and the bytes after it (R60, R66, R69). -/
def decode (m : OpcodeMap) : List Byte → Except DecodeReject (Instr × List Byte)
  | [] => .error .noBytes
  | op :: rest =>
    match m.find op with
    | some n => takeOperands op n rest
    | none => .error (.unknownOpcode op)

/-- The operand bytes of an instruction, in address order (R45, R62). -/
def Instr.operands : Instr → List Byte
  | .ldi a b => [a, b]
  | .prn a => [a]
  | .mul a b => [a, b]
  | .add a b => [a, b]
  | .and a b => [a, b]
  | .cmp a b => [a, b]
  | .inc a => [a]
  | .dec a => [a]
  | .push a => [a]
  | .pop a => [a]
  | .call a => [a]
  | .ret => []
  | .jmp a => [a]
  | .jeq a => [a]
  | .jne a => [a]
  | .hlt => []

/-- The bytes of an instruction at ascending addresses: opcode, operand A, operand B (R60, R62). -/
def encode (m : OpcodeMap) (i : Instr) : List Byte := m.value i.mnemonic :: i.operands

/-- Byte `k` of a word numbered as spec/opcode_table.json numbers it: byte 0 holds bits 7:0. -/
def tableByte (w k : Nat) : Byte := BitVec.ofNat 8 (w / 256 ^ k)

/-- The bytes of a table word of `nbits` bits, the first at the lowest address, filled up with zero
bytes to the longest instruction's three (R60). -/
def tableBytes (nbits w : Nat) : List Byte :=
  [tableByte (w % 2 ^ nbits) 0, tableByte (w % 2 ^ nbits) 1, tableByte (w % 2 ^ nbits) 2]

/-- What this decoder, with the values of R64, reads from a word of spec/opcode_table.json. -/
def decodeTableWord (nbits w : Nat) : Option Instr :=
  match decode standardOpcodes (tableBytes nbits w) with
  | .ok (i, _) => some i
  | .error _ => none

end Sys2Proof
end

