-- ==== Sys2Proof/Machine/State.lean ====
section
/-! DEFINITION. The whole mutable state of the machine (spec/10_state.md), as plain data, and its value
after reset (R27). -/

namespace Sys2Proof.Machine

/-- The 256-byte memory bank of R40: the cells that do not hold `Memory.unlisted`, as address and byte
pairs, addresses strictly rising. -/
abbrev Memory := List Host.Cell

/-- What an address that is not listed reads as: reset zeroes memory (R27, R42). -/
def Memory.unlisted : Byte := 0x00#8

/-- The canonical form of a memory: addresses strictly rising and inside the address space of R40, and
no entry equal to what an unlisted address reads as. -/
def Memory.wf : Memory → Bool
  | [] => true
  | c :: m =>
    decide (c.1 < Config.memSize) && c.2 != Memory.unlisted && m.all (fun d => c.1 < d.1) && Memory.wf m

/-- The record `DecodeError{opcode, addr}` of R23: the failing opcode and the address it was fetched
from (R173). -/
structure FaultRecord where
  opcode : Byte
  addr : Byte
deriving DecidableEq, Repr

/-- Why the core has no step (R81, R190): the three ways a run ends (R87).  Each is answered by `step`
in a state where the spec says there is no step, never by a meaning.  Safe: the spec's core stops
there too. -/
inductive Fault where
  /-- `halted = 1`: the last step executed `HLT` (R22, R160). Raised by `step`. Safe. -/
  | halted
  /-- `fault` holds this record: the last step fetched an unknown opcode (R172, R174). Raised by `step`
  in the state the faulting step left, never by the faulting step itself, which answers that state. Safe. -/
  | decodeError (opcode addr : Byte)
  /-- `MAX_INSTRUCTIONS = N` is configured and `N` steps were taken (R88). Raised by `step`. Safe. -/
  | limitExhausted
deriving DecidableEq, Repr

/-- Why the model gives an instruction no meaning. -/
inductive Refusal where
  /-- An instruction of the table without a meaning yet. Raised by an arm of `exec`: no arm does. Safe. -/
  | notModelled (mnemonic : String)
deriving DecidableEq, Repr

/-- All state of the machine (R10 to R29), and the configuration of R3 that every step reads. -/
structure State where
  /-- The general registers `R[0]` to `R[7]` (R10). -/
  regs : Vector Byte Config.nregs
  /-- The one memory: program, data and stack (R40). -/
  memory : Memory
  /-- The address of the next opcode (R14). -/
  pc : Byte
  /-- The most recently fetched opcode (R16). -/
  ir : Byte
  /-- The flags: E bit 0, L bit 1, G bit 2, bits 7:3 always 0 (R17). -/
  fl : Byte
  /-- The address of the top-of-stack element (R20). -/
  sp : Byte
  /-- The stop flag `HLT` sets (R22). -/
  halted : Bool
  /-- The record of a decode error, if one was taken (R23). -/
  fault : Option FaultRecord
  /-- The number of steps taken, counted when a limit is configured (R24). -/
  icount : Nat
  /-- The values `PRN` emitted, the first one first (R25). -/
  out : List Byte
  /-- The configuration (R3): constant data that no step writes. -/
  cfg : Config
deriving DecidableEq, Repr

/-- The configuration the spec settles on: the opcode values of R64 and no instruction limit (R88). -/
def defaultConfig : Config := { opcodes := standardOpcodes, maxInstructions := none }

/-- The reset state of a machine with a given configuration: the table of R27. -/
def State.resetWith (c : Config) : State :=
  { regs := Vector.replicate Config.nregs 0x00#8
    memory := []
    pc := Config.pcReset
    ir := 0x00#8
    fl := 0x00#8
    sp := Config.spReset
    halted := false
    fault := none
    icount := 0
    out := []
    cfg := c }

/-- The machine right after reset (R27, R200), before an image is loaded. -/
def State.reset : State := State.resetWith defaultConfig

end Sys2Proof.Machine
end

