-- ==== Sys2Proof/Machine/Ops.lean ====
section
/-! DEFINITION. The operations over memory, registers and control state that the meanings and the step
share, taking the decode error among them. -/

namespace Sys2Proof.Machine

/-! ### Memory -/

/-- The byte listed for an address, or what an unlisted address reads as. -/
def Memory.find (a : Nat) : Memory → Byte
  | [] => Memory.unlisted
  | c :: m => if c.1 = a then c.2 else Memory.find a m

/-- Takes every entry for an address out of the list. -/
def Memory.clear (a : Nat) (m : Memory) : Memory := m.filter fun c => c.1 != a

/-- Puts an entry before the first entry with a higher address. -/
def Memory.place (a : Nat) (v : Byte) : Memory → Memory
  | [] => [(a, v)]
  | c :: m => if a < c.1 then (a, v) :: c :: m else c :: Memory.place a v m

/-- `MemRead(a)` of R42: the cell `a mod 256`. -/
def Memory.read (m : Memory) (a : Nat) : Byte := Memory.find (a % Config.memSize) m

/-- `MemWrite(a, v)` of R43: sets the cell `a mod 256`; a cell that gets the unlisted value leaves the
list, which keeps the canonical form. -/
def Memory.write (m : Memory) (a : Nat) (v : Byte) : Memory :=
  if v = Memory.unlisted then Memory.clear (a % Config.memSize) m
  else Memory.place (a % Config.memSize) v (Memory.clear (a % Config.memSize) m)

/-- `MemRead` on the machine's memory (R42). -/
def State.memRead (s : State) (a : Nat) : Byte := s.memory.read a

/-- `MemWrite` on the machine's memory (R43). -/
def State.memWrite (s : State) (a : Nat) (v : Byte) : State :=
  { s with memory := s.memory.write a v }

/-! ### Registers and control state -/

/-- `R[r]` (R5): every register reads back what was written (R10). -/
def State.readReg (s : State) (r : RegIdx) : Byte := s.regs[r]

/-- `R[r] <- v` (R5). -/
def State.writeReg (s : State) (r : RegIdx) (v : Byte) : State := { s with regs := s.regs.set r v }

/-- `pc <- v`: any byte is a target, unchecked (R14, R150). -/
def State.setPc (s : State) (v : Byte) : State := { s with pc := v }

/-- `ir <- v`; only the fetch does this (R16). -/
def State.setIr (s : State) (v : Byte) : State := { s with ir := v }

/-- `fl <- v`; only `CMP` does this (R18). -/
def State.setFl (s : State) (v : Byte) : State := { s with fl := v }

/-- `sp <- v`; only the stack operations below do this (R21). -/
def State.setSp (s : State) (v : Byte) : State := { s with sp := v }

/-- `halted <- 1`; only `HLT` does this (R22). -/
def State.halt (s : State) : State := { s with halted := true }

/-- `Emit(v)` (R25): appends a value to the output stream; it never blocks or fails (R26). -/
def State.emit (s : State) (v : Byte) : State := { s with out := s.out ++ [v] }

/-- Counts a step, when a limit is configured (R24, R86). -/
def State.countStep (s : State) : State :=
  { s with icount := if s.cfg.maxInstructions.isSome then s.icount + 1 else s.icount }

/-! ### The stack (R20, R21) -/

/-- The address a push stores at: the decremented `sp` (R21). -/
def State.pushAddr (s : State) : Byte := s.sp - 1#8

/-- `sp <- sp -8 1; MemWrite(sp, v)` (R21), with no limit check (R20). -/
def State.push (s : State) (v : Byte) : State := (s.setSp s.pushAddr).memWrite s.pushAddr.toNat v

/-- The byte a pop loads: the one at `sp` (R21). -/
def State.top (s : State) : Byte := s.memRead s.sp.toNat

/-- `sp <- sp +8 1` (R21); the cell popped keeps its byte (R131). -/
def State.dropTop (s : State) : State := s.setSp (s.sp + 1#8)

/-! ### Taking the decode error, and the only way back (R172, R174) -/

/-- The one exception of the machine (R172): the record of the failing opcode and its address is held,
and nothing else changes.  It is applied to the state after the fetch, whose `ir` is the opcode and
whose `pc` is not advanced.  There is no handler and no saved state. -/
def State.takeDecodeError (s : State) : State := { s with fault := some ⟨s.ir, s.pc⟩ }

/-- `reset()` in any state (R30, R200): every piece of state takes its value of R27; the configuration
stays.  There is no return from the exception: this is the only way out of a stopped state (R174). -/
def State.reboot (s : State) : State := State.resetWith s.cfg

end Sys2Proof.Machine
end

