-- ==== Sys2Proof/Machine/Cycle.lean ====
section
/-! DEFINITION. The parts of a step around the dispatch (spec/40_cycle.md): whether there is a step,
the fetch, the operand bytes, the advance of `pc`, and the status the core presents. -/

namespace Sys2Proof.Machine

/-- Why the core has no step, if it has none (R81): halted, faulted, or the configured limit is used
up.  The limit is looked at before anything is fetched (R175). -/
def State.stopReason (s : State) : Option Fault :=
  if s.halted then some .halted
  else match s.fault with
    | some r => some (.decodeError r.opcode r.addr)
    | none => match s.cfg.maxInstructions with
      | some n => if s.icount < n then none else some .limitExhausted
      | none => none

/-- Byte `k` of the instruction at `pc`; the address wraps modulo 256 (R44, R83). -/
def State.byteAt (s : State) (k : Nat) : Byte := s.memRead (s.pc.toNat + k)

/-- The bytes a step fetches: the opcode and as many operand bytes as its bits 7:6 say (R82, R83).  They
come from memory whatever it holds there. -/
def State.fetchBytes (s : State) : List Byte :=
  s.byteAt 0 :: [s.byteAt 1, s.byteAt 2].take (arityOf (s.byteAt 0))

/-- The instruction at `pc`, or why there is none (R85). -/
def State.nextInstr (s : State) : Except DecodeReject Instr :=
  match decode s.cfg.opcodes s.fetchBytes with
  | .ok (i, _) => .ok i
  | .error e => .error e

/-- The fetch, `ir <- MemRead(pc)`, and the counting of the step (R82, R86). -/
def State.fetch (s : State) : State := (s.setIr (s.byteAt 0)).countStep

/-- `pc <- a0 +8 (n + 1)` with `n = ir[7:6]`, before the dispatch (R84). -/
def State.advance (s : State) : State := s.setPc (s.pc + BitVec.ofNat 8 (arityOf s.ir + 1))

/-- The state a meaning sees: fetched and advanced (R6). -/
def State.enter (s : State) : State := s.fetch.advance

/-- The status of R34. -/
inductive Status where
  | running | halted | faulted | limitExhausted
deriving DecidableEq, Repr

/-- The status the core presents, a function of the state (R34): running exactly when it has a step. -/
def State.status (s : State) : Status :=
  match s.stopReason with
  | none => .running
  | some .halted => .halted
  | some (.decodeError _ _) => .faulted
  | some .limitExhausted => .limitExhausted

/-- The cause code of R176: 0 for no fault, 1 for `DecodeError::UnknownOpcode` (decision D4). -/
def State.faultCode (s : State) : Nat := if s.fault.isSome then 1 else 0

end Sys2Proof.Machine
end

