-- ==== Sys2Proof/Machine/Operands.lean ====
section
/-! DEFINITION. The operand forms (R67, R68): a register operand and the literal of `LDI`. -/

namespace Sys2Proof.Machine

/-- `ridx(b) = b[2:0]` (R67): the operand byte modulo `NREGS`; bits 7:3 are ignored (decision D2, log entry 2). -/
def ridx (b : Byte) : RegIdx := ⟨b.toNat % Config.nregs, Nat.mod_lt _ (by decide)⟩

/-- The value of a register operand, `R[ridx(b)]`. -/
def State.regOperand (s : State) (b : Byte) : Byte := s.readReg (ridx b)

/-- `R[ridx(b)] <- v`. -/
def State.setRegOperand (s : State) (b v : Byte) : State := s.writeReg (ridx b) v

/-- A literal operand: all eight bits are the value, used as is (R68). -/
def literal (b : Byte) : Byte := b

end Sys2Proof.Machine
end

