-- ==== Sys2Proof/Machine/Flags.lean ====
section
/-! DEFINITION. The flags register (R17) and the one flag computation of the machine, `CMP`'s (R116).
No other operation computes a flag: there is no carry, overflow, zero or sign flag (R18). -/

namespace Sys2Proof.Machine

/-- `FL_E_BIT` of R2: the Equal flag. -/
abbrev flEBit : Nat := 0

/-- `FL_L_BIT` of R2: the Less-Than flag. -/
abbrev flLBit : Nat := 1

/-- `FL_G_BIT` of R2: the Greater-Than flag. -/
abbrev flGBit : Nat := 2

/-- The flags register with exactly one flag set. -/
def flagByte (k : Nat) : Byte := 1#8 <<< k

/-- The flags `CMP` leaves for two values, ordered as unsigned numbers: all three flags are cleared and
exactly one is set, and bits 7:3 are 0 (R116). -/
def cmpFlags (x y : Byte) : Byte :=
  if x = y then flagByte flEBit
  else if x.toNat < y.toNat then flagByte flLBit
  else flagByte flGBit

/-- The E flag, the only one an instruction reads: `JEQ` and `JNE` test the bit `CMP` writes (R19). -/
def State.flagE (s : State) : Bool := s.fl.getLsbD flEBit

/-- The L flag; no instruction reads it (R19). -/
def State.flagL (s : State) : Bool := s.fl.getLsbD flLBit

/-- The G flag; no instruction reads it (R19). -/
def State.flagG (s : State) : Bool := s.fl.getLsbD flGBit

/-- The values `fl` may hold (R18): no flag, E, L or G. -/
def flLegal (v : Byte) : Bool :=
  v == 0#8 || v == flagByte flEBit || v == flagByte flLBit || v == flagByte flGBit

end Sys2Proof.Machine
end

