-- ==== Sys2Proof/Machine/Alu.lean ====
section
/-! DEFINITION. The ALU and its six instructions `MUL`, `ADD`, `AND`, `CMP`, `INC`, `DEC`
(spec/42_alu.md).  Arithmetic is modulo 256 and silent (R111). -/

namespace Sys2Proof.Machine

/-- The ALU operations that write a register (R110), as functions of the values read. -/
inductive AluOp where
  | mul | add | and | inc | dec
deriving DecidableEq, Repr

/-- The result of an ALU operation on the two values read (R111); `inc` and `dec` take no second value. -/
def aluResult (op : AluOp) (x y : Byte) : Byte :=
  match op with
  | .mul => x * y
  | .add => x + y
  | .and => x &&& y
  | .inc => x + 1#8
  | .dec => x - 1#8

/-- A two-register ALU operation: both values are read, then `R[A]` is written (R110, R119). -/
def State.aluTwo (s : State) (op : AluOp) (opA opB : Byte) : State :=
  s.setRegOperand opA (aluResult op (s.regOperand opA) (s.regOperand opB))

/-- A one-register ALU operation on `R[A]` (R110). -/
def State.aluOne (s : State) (op : AluOp) (opA : Byte) : State :=
  s.setRegOperand opA (aluResult op (s.regOperand opA) (s.regOperand opA))

/-- R112: `R[A] <- R[A] *8 R[B]`. -/
def execMul (opA opB : Byte) (s : State) : Host.Outcome State Fault Refusal :=
  .next (s.aluTwo .mul opA opB)

/-- R113: `R[A] <- R[A] +8 R[B]`. -/
def execAdd (opA opB : Byte) (s : State) : Host.Outcome State Fault Refusal :=
  .next (s.aluTwo .add opA opB)

/-- R114: `R[A] <- R[A] & R[B]`. -/
def execAnd (opA opB : Byte) (s : State) : Host.Outcome State Fault Refusal :=
  .next (s.aluTwo .and opA opB)

/-- R116: writes `fl` and no register. -/
def execCmp (opA opB : Byte) (s : State) : Host.Outcome State Fault Refusal :=
  .next (s.setFl (cmpFlags (s.regOperand opA) (s.regOperand opB)))

/-- R117: `R[A] <- R[A] +8 1`. -/
def execInc (opA : Byte) (s : State) : Host.Outcome State Fault Refusal :=
  .next (s.aluOne .inc opA)

/-- R118: `R[A] <- R[A] -8 1`. -/
def execDec (opA : Byte) (s : State) : Host.Outcome State Fault Refusal :=
  .next (s.aluOne .dec opA)

end Sys2Proof.Machine
end

