-- ==== Sys2Proof/Machine/Control.lean ====
section
/-! DEFINITION. The control-transfer instructions `CALL`, `RET`, `JMP`, `JEQ`, `JNE`
(spec/44_control.md).  The `pc` of the state given is the address of the next instruction in order, so
a transfer overwrites it and an untaken jump does nothing (R151). -/

namespace Sys2Proof.Machine

/-- R140: pushes the advanced `pc`, then `pc <- R[ridx(opA)]`. -/
def execCall (opA : Byte) (s : State) : Host.Outcome State Fault Refusal :=
  .next ((s.push s.pc).setPc ((s.push s.pc).regOperand opA))

/-- R142: `pc <- MemRead(sp); sp <- sp +8 1`. -/
def execRet (s : State) : Host.Outcome State Fault Refusal :=
  .next (s.setPc s.top).dropTop

/-- R144: `pc <- R[ridx(opA)]`. -/
def execJmp (opA : Byte) (s : State) : Host.Outcome State Fault Refusal :=
  .next (s.setPc (s.regOperand opA))

/-- A conditional jump: `pc` becomes `R[ridx(opA)]`, or stays the next instruction's address (R151). -/
def State.jumpIf (s : State) (taken : Bool) (opA : Byte) : State :=
  s.setPc (if taken then s.regOperand opA else s.pc)

/-- R146: jumps when E is set. -/
def execJeq (opA : Byte) (s : State) : Host.Outcome State Fault Refusal :=
  .next (s.jumpIf s.flagE opA)

/-- R148: jumps when E is clear. -/
def execJne (opA : Byte) (s : State) : Host.Outcome State Fault Refusal :=
  .next (s.jumpIf (!s.flagE) opA)

end Sys2Proof.Machine
end

