-- ==== Sys2Proof/Machine/LoadPrint.lean ====
section
/-! DEFINITION. Load-immediate and print: `LDI`, `PRN` (spec/41_load_print.md).  As for every meaning,
the `pc` of the state given is already past the instruction (R6, R84). -/

namespace Sys2Proof.Machine

/-- R100: `R[ridx(opA)] <- opB`. -/
def execLdi (opA opB : Byte) (s : State) : Host.Outcome State Fault Refusal :=
  .next (s.setRegOperand opA (literal opB))

/-- R102: `Emit(R[ridx(opA)])`. -/
def execPrn (opA : Byte) (s : State) : Host.Outcome State Fault Refusal :=
  .next (s.emit (s.regOperand opA))

end Sys2Proof.Machine
end

