-- ==== Sys2Proof/Machine/Stack.lean ====
section
/-! DEFINITION. The stack instructions `PUSH`, `POP` (spec/43_stack.md). -/

namespace Sys2Proof.Machine

/-- R130: `sp <- sp -8 1; MemWrite(sp, R[ridx(opA)])`. -/
def execPush (opA : Byte) (s : State) : Host.Outcome State Fault Refusal :=
  .next (s.push (s.regOperand opA))

/-- R131: `R[ridx(opA)] <- MemRead(sp); sp <- sp +8 1`. -/
def execPop (opA : Byte) (s : State) : Host.Outcome State Fault Refusal :=
  .next (s.setRegOperand opA s.top).dropTop

end Sys2Proof.Machine
end

