-- ==== Sys2Proof/Machine/System.lean ====
section
/-! DEFINITION. The only system instruction, `HLT` (spec/45_system.md). -/

namespace Sys2Proof.Machine

/-- R160: `halted <- 1`; the ordinary advance of `pc` stands. -/
def execHlt (s : State) : Host.Outcome State Fault Refusal :=
  .next s.halt

end Sys2Proof.Machine
end

