-- ==== Sys2Proof/Machine/Dispatch.lean ====
section
/-! DEFINITION. The dispatch of R85: each instruction to its one meaning, with no fallthrough. -/

namespace Sys2Proof.Machine

/-- The effect of an instruction on the state after the fetch and the advance of `pc` (R85, R86). -/
def exec (i : Instr) (s : State) : Host.Outcome State Fault Refusal :=
  match i with
  | .ldi opA opB => Sys2Proof.Machine.execLdi opA opB s
  | .prn opA => Sys2Proof.Machine.execPrn opA s
  | .mul opA opB => Sys2Proof.Machine.execMul opA opB s
  | .add opA opB => Sys2Proof.Machine.execAdd opA opB s
  | .and opA opB => Sys2Proof.Machine.execAnd opA opB s
  | .cmp opA opB => Sys2Proof.Machine.execCmp opA opB s
  | .inc opA => Sys2Proof.Machine.execInc opA s
  | .dec opA => Sys2Proof.Machine.execDec opA s
  | .push opA => Sys2Proof.Machine.execPush opA s
  | .pop opA => Sys2Proof.Machine.execPop opA s
  | .call opA => Sys2Proof.Machine.execCall opA s
  | .ret => Sys2Proof.Machine.execRet s
  | .jmp opA => Sys2Proof.Machine.execJmp opA s
  | .jeq opA => Sys2Proof.Machine.execJeq opA s
  | .jne opA => Sys2Proof.Machine.execJne opA s
  | .hlt => Sys2Proof.Machine.execHlt s

end Sys2Proof.Machine
end

