-- ==== Sys2Proof/Machine/Step.lean ====
section
/-! DEFINITION. The machine's only transition (R86), and how the host places an instruction. -/

namespace Sys2Proof.Machine

/-- One step (R80 to R86).  Where R81 gives no step, the answer is the reason.  An unknown opcode is
detected before `pc` is advanced, and the step that meets it goes on to the faulted state (R85, R172). -/
def step (s : State) : Host.Outcome State Fault Refusal :=
  match s.stopReason with
  | some f => .fault f
  | none => match s.nextInstr with
    | .ok i => exec i s.enter
    | .error _ => .next s.fetch.takeDecodeError

/-- `s` with the bytes of a table word stored where the next step fetches: at `pc` and the two addresses
after it.  It stands for the load of R52 (log entry 24). -/
def State.withFetchWord (s : State) (nbits w : Nat) : State :=
  ((s.memWrite s.pc.toNat (tableByte (w % 2 ^ nbits) 0)).memWrite
    (s.pc.toNat + 1) (tableByte (w % 2 ^ nbits) 1)).memWrite
    (s.pc.toNat + 2) (tableByte (w % 2 ^ nbits) 2)

end Sys2Proof.Machine
end

