-- ==== Sys2Proof/Machine/Loader.lean ====
section
/-! DEFINITION. The load port of the core (R52), the launch sequence (R201), and the text form of an
image that the out-of-scope loader reads (R74).  Text is a list of characters. -/

namespace Sys2Proof.Machine

/-- The load errors of R177.  They never enter the core's state. -/
inductive LoadError where
  /-- The text image has a token that is not binary (R74). -/
  | malformed
  /-- The image has more than `IMAGE_MAX` bytes (R52). -/
  | oversize
deriving DecidableEq, Repr

/-- The host-side number of a load error (R176, decision D4). -/
def LoadError.code : LoadError → Nat
  | .malformed => 1
  | .oversize => 2

/-- Writes bytes to successive addresses (R45, R52). -/
def State.storeFrom (s : State) (a : Nat) : List Byte → State
  | [] => s
  | b :: bs => (s.memWrite a b).storeFrom (a + 1) bs

/-- `load_image(bytes)` on a machine that was just reset, where it is legal once, before the run (R31,
R52): all of the image or, when it is too large, an error and no write (decision D12). -/
def State.loadImage (s : State) (bytes : List Byte) : Except LoadError State :=
  if bytes.length ≤ Config.imageMax then .ok (s.storeFrom Config.pcReset.toNat bytes)
  else .error .oversize

/-- The launch state of R201: reset, then a load that must succeed.  `run()` starts from it. -/
def launch (c : Config) (bytes : List Byte) : Except LoadError State :=
  (State.resetWith c).loadImage bytes

/-! ### The text image (R74) -/

/-- The number a list of binary digits spells, after the digits read so far. -/
def binaryFrom (acc : Nat) : List Char → Option Nat
  | [] => some acc
  | c :: cs =>
    if c = '0' then binaryFrom (2 * acc) cs
    else if c = '1' then binaryFrom (2 * acc + 1) cs
    else none

/-- One line: a blank line gives no byte; otherwise up to eight binary digits.  Anything else is
malformed (log entry 27). -/
def parseLine (line : List Char) : Except LoadError (Option Byte) :=
  if line = [] then .ok none
  else if line.length ≤ Config.xlen then
    match binaryFrom 0 line with
    | some v => .ok (some (BitVec.ofNat 8 v))
    | none => .error .malformed
  else .error .malformed

/-- The bytes of a text image, one a line, in file order (R74). -/
def parseLines : List (List Char) → Except LoadError (List Byte)
  | [] => .ok []
  | l :: ls =>
    match parseLine l, parseLines ls with
    | .ok (some b), .ok bs => .ok (b :: bs)
    | .ok none, .ok bs => .ok bs
    | .ok _, .error e => .error e
    | .error e, _ => .error e

/-- Reads a text image and launches the machine with it; nothing runs after an error (R177). -/
def launchText (c : Config) (lines : List (List Char)) : Except LoadError State :=
  match parseLines lines with
  | .ok bytes => launch c bytes
  | .error e => .error e

end Sys2Proof.Machine
end

