-- ==== Sys2Proof/Machine/Output.lean ====
section
/-! DEFINITION. Text forms: the rendering of the output stream by the sink (R103, decision D9), and the
assembly spelling of an instruction in the spec's listings (R72, decision D14).  Text is a list of
characters; no step reads or writes it. -/

namespace Sys2Proof.Machine

/-- The character of a decimal digit. -/
def digitChar (d : Nat) : Char := Char.ofNat ('0'.toNat + d % 10)

/-- The shortest decimal digits of an unsigned byte: no sign, no leading zero, `0` for zero (R103). -/
def decimalDigits (v : Byte) : List Char :=
  if v.toNat < 10 then [digitChar v.toNat]
  else if v.toNat < 100 then [digitChar (v.toNat / 10), digitChar v.toNat]
  else [digitChar (v.toNat / 100), digitChar (v.toNat / 10), digitChar v.toNat]

/-- The text of an output stream: each value's digits and one newline (R103). -/
def renderOut : List Byte → List Char
  | [] => []
  | v :: vs => decimalDigits v ++ '\n' :: renderOut vs

/-- The spelling of a mnemonic: capitals (R72). -/
def mnemonicText : Mnemonic → List Char
  | .ldi => ['L', 'D', 'I']
  | .prn => ['P', 'R', 'N']
  | .mul => ['M', 'U', 'L']
  | .add => ['A', 'D', 'D']
  | .and => ['A', 'N', 'D']
  | .cmp => ['C', 'M', 'P']
  | .inc => ['I', 'N', 'C']
  | .dec => ['D', 'E', 'C']
  | .push => ['P', 'U', 'S', 'H']
  | .pop => ['P', 'O', 'P']
  | .call => ['C', 'A', 'L', 'L']
  | .ret => ['R', 'E', 'T']
  | .jmp => ['J', 'M', 'P']
  | .jeq => ['J', 'E', 'Q']
  | .jne => ['J', 'N', 'E']
  | .hlt => ['H', 'L', 'T']

/-- A register: `R` and its index (R72). -/
def registerText (b : Byte) : List Char := ['R', digitChar (ridx b).val]

/-- The operands of an instruction, operand A first, separated by a comma (R72). -/
def operandText : Instr → List Char
  | .ldi a b => registerText a ++ ',' :: decimalDigits (literal b)
  | .mul a b | .add a b | .and a b | .cmp a b => registerText a ++ ',' :: registerText b
  | .prn a | .inc a | .dec a | .push a | .pop a | .call a | .jmp a | .jeq a | .jne a => registerText a
  | .ret | .hlt => []

/-- An instruction as the spec's listings write it (R72). -/
def listing (i : Instr) : List Char :=
  match operandText i with
  | [] => mnemonicText i.mnemonic
  | t => mnemonicText i.mnemonic ++ ' ' :: t

end Sys2Proof.Machine
end

