-- ==== Sys2Proof/Machine/Pins.lean ====
section
/-! DEFINITION. The possible signal-level interface of R35 around the core.  No other rule needs it; the
clocks per instruction are free, and this model takes one (log entry 26). -/

namespace Sys2Proof.Machine

/-- The input pins of R35 at one clock. -/
structure PinsIn where
  rst : Bool
  loadEn : Bool
  loadAddr : Byte
  loadData : Byte
  start : Bool
deriving DecidableEq, Repr

/-- The output pins of R35 after one clock.  A data pin has a value only while its valid pin is up, so
`out_valid` and `out_data` are one option, and `fault_valid`, `fault_opcode` and `fault_addr` another. -/
structure PinsOut where
  out : Option Byte
  halted : Bool
  fault : Option FaultRecord
  limitHit : Bool
deriving DecidableEq, Repr

/-- The core with the one piece of state its pins add: whether `start` was pulsed since reset. -/
structure Board where
  core : State
  started : Bool
deriving DecidableEq, Repr

/-- The output pins when the core has gone from `s` to `t`: a pulse for a value `PRN` emitted. -/
def pinsAfter (s t : State) : PinsOut :=
  { out := (t.out.drop s.out.length).head?
    halted := t.halted
    fault := t.fault
    limitHit := t.status == .limitExhausted }

/-- The core after one clock: reset is synchronous, the load port writes until `start` was pulsed, and
then each clock takes a step if there is one (R35, R81).  One step a clock is the model's choice (log
entry 26). -/
def Board.nextCore (b : Board) (p : PinsIn) : State :=
  if p.rst then b.core.reboot
  else if b.started then
    match step b.core with
    | .next t => t
    | .fault _ => b.core
    | .refused _ => b.core
  else if p.loadEn then b.core.memWrite p.loadAddr.toNat p.loadData
  else b.core

/-- One clock of the board (R35).  DESIGN CHOICE (log entry 26), where R35 is silent: a `start` pulse
takes effect at the end of its clock, a load in the same clock is still written, and a `start` pulse in
a clock with `rst` high is dropped, so it does not begin a run once `rst` falls. -/
def Board.clock (b : Board) (p : PinsIn) : Board × PinsOut :=
  ({ core := b.nextCore p, started := !p.rst && (b.started || p.start) },
   pinsAfter b.core (b.nextCore p))

end Sys2Proof.Machine
end

