-- ==== Sys2Proof/Machine/Run.lean ====
section
/-! DEFINITION. The run built from the step (R87, R89), and a sequence of meanings for statements about
what several instructions do together. -/

namespace Sys2Proof.Machine

/-- `run()` for at most `k` steps (R32, R87): it repeats the step while there is one, and a terminal
state stays as it is (R81). -/
def run : Nat → State → State
  | 0, s => s
  | k + 1, s =>
    match step s with
    | .next t => run k t
    | .fault _ => s
    | .refused _ => s

/-- The run from `s` ends in `t` (R89): `t` is reached and has no step.  A run may also never end (R87). -/
def RunEndsIn (s t : State) : Prop := ∃ k, run k s = t ∧ t.stopReason ≠ none

/-- The effects of a list of instructions, each on the state the one before it left. -/
def execAll : List Instr → State → Host.Outcome State Fault Refusal
  | [], s => .next s
  | i :: is, s =>
    match exec i s with
    | .next t => execAll is t
    | .fault f => .fault f
    | .refused r => .refused r

end Sys2Proof.Machine
end

