-- ==== Sys2Proof/Machine/Session.lean ====
section
/-! DEFINITION. What the outside may do to the core and when (R30 to R33), as the launch sequence of R201
allows it: `reset()`, then `load_image()`, then `run()`. -/

namespace Sys2Proof.Machine

/-- How far the launch sequence has come (R201). -/
inductive Phase where
  /-- After `reset()`: the image may be loaded, once (R31). -/
  | fresh
  /-- After a successful load: the run may start (R32). -/
  | loaded
  /-- After a failed load: the run must not start (R177). -/
  | loadFailed
  /-- After `run()`: only the core moves (R33). -/
  | started
deriving DecidableEq, Repr

/-- The core and the phase the outside has brought it to. -/
structure Session where
  core : State
  phase : Phase
deriving DecidableEq, Repr

/-- The three transactions of R30 to R32. -/
inductive HostMove where
  | reset
  | loadImage (bytes : List Byte)
  | run
deriving DecidableEq, Repr

/-- The effect of a transaction, where the interface allows it in this phase.  Reset is allowed in every
state (R30); there is no other move once the run has started (R33, decision D18). -/
def Session.move (h : Session) : HostMove → Option Session
  | .reset => some ⟨h.core.reboot, .fresh⟩
  | .loadImage bytes =>
    if h.phase = .fresh then
      match h.core.loadImage bytes with
      | .ok s => some ⟨s, .loaded⟩
      | .error _ => some ⟨h.core, .loadFailed⟩
    else none
  | .run => if h.phase = .loaded then some ⟨h.core, .started⟩ else none

/-- The core's own move: a step, once the run has started and while there is one (R32, R81). -/
def Session.coreStep (h : Session) : Option Session :=
  if h.phase = .started then
    match step h.core with
    | .next t => some ⟨t, .started⟩
    | .fault _ => none
    | .refused _ => none
  else none

end Sys2Proof.Machine
end

