-- ==== Sys2Proof/Safety.lean ====
section
/-! DEFINITION. The terms claims use: the parts of the state and what an instruction leaves unchanged,
when an instruction is about to run, the invariant of R28, and safe and clean runs. -/

namespace Sys2Proof.Machine

/-- One part of the state: a register, a memory cell, or one of the other fields. -/
inductive Part where
  | reg (r : RegIdx)
  | cell (a : Byte)
  | pc | ir | fl | sp | halted | fault | icount | out | cfg
deriving DecidableEq, Repr

/-- The part holds the same value in both states; a memory cell is compared by reading its byte. -/
def Part.Same (s t : State) : Part → Prop
  | .reg r => t.readReg r = s.readReg r
  | .cell a => t.memRead a.toNat = s.memRead a.toNat
  | .pc => t.pc = s.pc
  | .ir => t.ir = s.ir
  | .fl => t.fl = s.fl
  | .sp => t.sp = s.sp
  | .halted => t.halted = s.halted
  | .fault => t.fault = s.fault
  | .icount => t.icount = s.icount
  | .out => t.out = s.out
  | .cfg => t.cfg = s.cfg

/-- The frame: every part of the state but the listed ones is as before. -/
def UnchangedExcept (l : List Part) (s t : State) : Prop := ∀ p : Part, p ∉ l → p.Same s t

/-- The condition of R81 for a step: not halted, no fault, and steps left under the limit. -/
def State.CanStep (s : State) : Prop :=
  s.halted = false ∧ s.fault = none ∧ ∀ n, s.cfg.maxInstructions = some n → s.icount < n

/-- The three bytes at `pc`, `pc +8 1` and `pc +8 2`: the addresses wrap modulo 256 (R44, R45). -/
def State.window (s : State) : List Byte :=
  [s.memRead s.pc.toNat, s.memRead (s.pc + 1#8).toNat, s.memRead (s.pc + 2#8).toNat]

/-- The next step runs this instruction: the core has a step, its opcode map is well formed (R65), and
the bytes from `pc` on are the instruction's encoding. -/
structure Ready (s : State) (i : Instr) : Prop where
  can_step : s.CanStep
  cfg_wf : s.cfg.wf = true
  bytes : s.window.take (i.arity + 1) = encode s.cfg.opcodes i

/-- The step of R86 counts itself only when a limit is configured. -/
def State.countAfter (s : State) : Nat :=
  match s.cfg.maxInstructions with
  | some _ => s.icount + 1
  | none => s.icount

/-- The meaning of `i` answers a next state at `s`, with the result `post` and all but the written parts
unchanged. -/
def ExecGives (s : State) (i : Instr) (written : List Part) (post : State → Prop) : Prop :=
  ∃ t, exec i s = .next t ∧ post t ∧ UnchangedExcept written s t

/-- The whole step that runs `i` from `s` answers a next state, with the result `post`; `ir` holds the
opcode, the step is counted, and all else but the written parts is unchanged. -/
def StepGives (s : State) (i : Instr) (written : List Part) (post : State → Prop) : Prop :=
  ∃ t, step s = .next t ∧ post t ∧ t.ir = s.cfg.opcodes.value i.mnemonic ∧ t.icount = s.countAfter ∧
    UnchangedExcept (.ir :: .icount :: written) s t

/-- The invariant of R28, with the form of the memory, the range of the step count (R24, R88) and the
well-formedness of the configuration (R65).  Clauses (a) and (e) of R28 are in the types. -/
structure State.Inv (s : State) : Prop where
  cfg_wf : s.cfg.wf = true
  memory_wf : Memory.wf s.memory = true
  fl_legal : s.fl = 0x00#8 ∨ s.fl = 0x01#8 ∨ s.fl = 0x02#8 ∨ s.fl = 0x04#8
  stops_apart : ¬(s.halted = true ∧ s.fault ≠ none)
  fault_agrees : ∀ r, s.fault = some r →
    s.ir = r.opcode ∧ s.pc = r.addr ∧ r.opcode ∉ s.cfg.opcodes.values
  count_within : ∀ n, s.cfg.maxInstructions = some n → s.icount ≤ n
  count_off : s.cfg.maxInstructions = none → s.icount = 0

/-- A safe run: no state it reaches is faulted or out of steps (R89). -/
def SafeRun (s : State) : Prop :=
  ∀ k, (run k s).status = .running ∨ (run k s).status = .halted

/-- A clean end (R89): the run ends halted. -/
def EndsCleanly (s : State) : Prop := ∃ t, RunEndsIn s t ∧ t.status = .halted

/-- The outcome with its next state changed. -/
def onNext (f : State → State) :
    Host.Outcome State Fault Refusal → Host.Outcome State Fault Refusal
  | .next s => .next (f s)
  | .fault r => .fault r
  | .refused r => .refused r

end Sys2Proof.Machine
end

