-- ==== Sys2Proof/Certificates/Slice0/Obligations.lean ====
section
/-! DEFINITION. The statements for the provers.  A statement about an instruction holds for every state
and every operand byte: `ExecGives` says that its meaning answers a next state, with the result and
the frame; `StepGives` says the same of the whole step that fetches it, under every well-formed opcode
map.  Where an operand byte is above 7, `ridx` is the spec's decision D2 (R67, log entry 2). -/

open Sys2Proof Sys2Proof.Machine

/-! ### Encoding -/

/-- Words written out from the formats of R62 and the values of R64 decode to their instructions: one
of each format, and more.  The values are the spec's decision D1 (log entry 1). -/
def Obligations.SpecEncodingWordsDecode : Prop :=
  decodeTableWord 24 0b00000101_00000000_10000010 = some (.ldi 0x00#8 0x05#8) ∧
  decodeTableWord 16 0b00000100_01000111 = some (.prn 0x04#8) ∧
  decodeTableWord 24 0b00000001_00000000_10100000 = some (.add 0x00#8 0x01#8) ∧
  decodeTableWord 24 0b00000011_00000010_10100111 = some (.cmp 0x02#8 0x03#8) ∧
  decodeTableWord 16 0b00000010_01000101 = some (.push 0x02#8) ∧
  decodeTableWord 16 0b11111100_01010100 = some (.jmp 0xFC#8) ∧
  decodeTableWord 8 0b00010001 = some .ret ∧
  decodeTableWord 8 0b00000001 = some .hlt

/-- The encoding of each instruction, opcode byte first, for every operand byte.  The values are the
spec's decision D1 (log entry 1). -/
def Obligations.EncodingsOfTheSixteenInstructions : Prop :=
  ∀ a b : Byte,
    encode standardOpcodes (.ldi a b) = [0b10000010#8, a, b] ∧
    encode standardOpcodes (.prn a) = [0b01000111#8, a] ∧
    encode standardOpcodes (.mul a b) = [0b10100010#8, a, b] ∧
    encode standardOpcodes (.add a b) = [0b10100000#8, a, b] ∧
    encode standardOpcodes (.and a b) = [0b10101000#8, a, b] ∧
    encode standardOpcodes (.cmp a b) = [0b10100111#8, a, b] ∧
    encode standardOpcodes (.inc a) = [0b01100101#8, a] ∧
    encode standardOpcodes (.dec a) = [0b01100110#8, a] ∧
    encode standardOpcodes (.push a) = [0b01000101#8, a] ∧
    encode standardOpcodes (.pop a) = [0b01000110#8, a] ∧
    encode standardOpcodes (.call a) = [0b01010000#8, a] ∧
    encode standardOpcodes .ret = [0b00010001#8] ∧
    encode standardOpcodes (.jmp a) = [0b01010100#8, a] ∧
    encode standardOpcodes (.jeq a) = [0b01010101#8, a] ∧
    encode standardOpcodes (.jne a) = [0b01010110#8, a] ∧
    encode standardOpcodes .hlt = [0b00000001#8]

/-- Decoding the encoding of any instruction, under any well-formed opcode map and whatever bytes
follow, gives the instruction back with every operand byte whole (R60, R62, R65). -/
def Obligations.DecodeOfEncodeIsTheInstruction : Prop :=
  ∀ (m : OpcodeMap) (i : Instr) (rest : List Byte), m.wf = true →
    decode m (encode m i ++ rest) = .ok (i, rest)

/-- The bytes an instruction was decoded from are its encoding, so each byte string has one meaning and
no bit of an operand is dropped. -/
def Obligations.DecodedBytesAreTheEncoding : Prop :=
  ∀ (m : OpcodeMap) (bytes rest : List Byte) (i : Instr), m.wf = true →
    decode m bytes = .ok (i, rest) → bytes = encode m i ++ rest

/-- R66: the whole opcode byte selects the instruction by exact match against the 16 values, and the
operand bytes take no part. -/
def Obligations.OpcodeByteAloneSelectsTheInstruction : Prop :=
  ∀ (m : OpcodeMap) (n : Mnemonic) (op a b : Byte) (rest : List Byte), m.wf = true →
    ((∃ i r, decode m (op :: a :: b :: rest) = .ok (i, r) ∧ i.mnemonic = n) ↔ op = m.value n)

/-- The decoder rejects exactly the bytes that are no value of the map, by name (R69, first sentence). -/
def Obligations.UnmappedOpcodesAreRejectedByName : Prop :=
  ∀ (m : OpcodeMap) (op a b : Byte) (rest : List Byte),
    decode m (op :: a :: b :: rest) = .error (.unknownOpcode op) ↔ op ∉ m.values

/-- With the values of R64 (decision D1, log entry 1), 240 byte values are unknown opcodes, 0x00 and
every byte from 0xC0 on among them (R69, decision D13). -/
def Obligations.TwoHundredFortyBytesAreUnknown : Prop :=
  ((List.range 256).filter fun v => standardOpcodes.find (BitVec.ofNat 8 v) == none).length = 240 ∧
  (0x00#8 : Byte) ∉ standardOpcodes.values ∧
  ∀ op : Byte, 0xC0 ≤ op.toNat → op ∉ standardOpcodes.values

/-- The operand count of a decoded instruction is bits 7:6 of its opcode, `(ir >> 6) & 0b11`, it is never
3, and that many bytes after the opcode are consumed (R61, R63). -/
def Obligations.OperandCountIsBitsSevenAndSix : Prop :=
  ∀ (m : OpcodeMap) (op : Byte) (rest r : List Byte) (i : Instr), m.wf = true →
    decode m (op :: rest) = .ok (i, r) →
    i.arity = ((op >>> 6) &&& 3#8).toNat ∧ i.arity ≤ 2 ∧ rest.length = i.arity + r.length

/-! ### The step -/

/-- A step runs the decoded instruction: when the bytes from `pc` on, at addresses modulo 256, decode to
`i`, the step is the meaning of `i` on the state whose `ir` is the opcode and whose `pc` is past the
instruction, and the step is counted when a limit is configured (R82 to R86). -/
def Obligations.StepRunsTheDecodedInstruction : Prop :=
  ∀ (s : State) (i : Instr) (rest : List Byte), s.CanStep → s.cfg.wf = true →
    decode s.cfg.opcodes s.window = .ok (i, rest) →
    step s = exec i
      { s with
        pc := s.pc + BitVec.ofNat 8 (i.arity + 1)
        ir := s.memRead s.pc.toNat
        icount := s.countAfter }

/-- The core has a step exactly when it is not halted, holds no fault, and has steps left under a
configured limit (R81); in every other state there is no step and any run leaves the state as it is.  That
`step` then answers a fault that names why is the model's choice (log entry 21). -/
def Obligations.StepExistsExactlyWhenRunning : Prop :=
  ∀ s : State,
    ((∃ t, step s = .next t) ↔
      s.halted = false ∧ s.fault = none ∧ ∀ n, s.cfg.maxInstructions = some n → s.icount < n) ∧
    (¬s.CanStep → (∃ f, step s = .fault f) ∧ ∀ k, run k s = s)

/-- An unknown opcode takes the decode error: the step writes `ir` and the fault record, counts itself,
and changes nothing else, `pc` among the rest; the state it leaves is terminal and reports opcode and
address (R85, R172, R174).  That `pc` stays and the record is state is the spec's decision D3, and the
fault that names the stop is the model's choice (log entry 21). -/
def Obligations.UnknownOpcodeTakesTheDecodeError : Prop :=
  ∀ s : State, s.CanStep → s.memRead s.pc.toNat ∉ s.cfg.opcodes.values →
    ∃ t, step s = .next t ∧
      t.ir = s.memRead s.pc.toNat ∧
      t.fault = some ⟨s.memRead s.pc.toNat, s.pc⟩ ∧
      t.icount = s.countAfter ∧
      UnchangedExcept [.ir, .fault, .icount] s t ∧
      step t = .fault (.decodeError (s.memRead s.pc.toNat) s.pc)

/-- A step sets the fault record exactly when the byte at `pc` is an unknown opcode: no defined
instruction raises the exception (R171). -/
def Obligations.OnlyUnknownOpcodesFault : Prop :=
  ∀ s t : State, s.cfg.wf = true → step s = .next t →
    (t.fault ≠ none ↔ s.memRead s.pc.toNat ∉ s.cfg.opcodes.values)

/-- The run stops after the step that executes `HLT` and by no other instruction: a step sets the stop
flag exactly when the opcode is `HLT`'s, and then there is no further step (R22, R91, decision D10; the
fault that names the stop is log entry 21). -/
def Obligations.OnlyHltSetsTheStopFlag : Prop :=
  ∀ s t : State, s.cfg.wf = true → step s = .next t →
    (t.halted = true ↔ s.memRead s.pc.toNat = s.cfg.opcodes.hlt) ∧
    (t.halted = true → step t = .fault .halted ∧ t.status = .halted)

/-- With a limit `N`, every step counts one, and a state with `icount = N` that is neither halted nor
faulted has no step and reports the limit (R88, decision D7; the fault that names it is log entry 21). -/
def Obligations.LimitStopsTheCore : Prop :=
  ∀ (s : State) (n : Nat), s.cfg.maxInstructions = some n →
    (∀ t, step s = .next t → t.icount = s.icount + 1) ∧
    (s.icount = n → s.halted = false → s.fault = none →
      step s = .fault .limitExhausted ∧ s.status = .limitExhausted)

/-- The limit does not alter any step that does execute: the same machine without a limit takes the same
step (R88, decision D7). -/
def Obligations.LimitDoesNotAlterAStep : Prop :=
  ∀ s t : State, step s = .next t →
    step { s with cfg := { s.cfg with maxInstructions := none }, icount := 0 } =
      .next { t with cfg := { t.cfg with maxInstructions := none }, icount := 0 }

/-- With a limit `N`, a run from a state that has taken at most `N` steps is over after the steps that
are left (R88, decision D7). -/
def Obligations.LimitBoundsEveryRun : Prop :=
  ∀ (s : State) (n : Nat), s.cfg.maxInstructions = some n → s.icount ≤ n →
    ¬(run (n - s.icount) s).CanStep

/-- Without a limit, a `JMP` to its own address runs for ever (R87, R144). -/
def Obligations.JumpToItselfNeverEnds : Prop :=
  ∀ (s : State) (a : Byte), s.cfg.maxInstructions = none → Ready s (.jmp a) →
    s.readReg (ridx a) = s.pc → ∀ k, (run k s).CanStep ∧ (run k s).pc = s.pc

/-- R16: `ir` is zero at reset, every step writes it with the byte fetched, unknown opcodes included, no
instruction writes it or reads it, no step depends on the value it held, and a stopped machine keeps it. -/
def Obligations.IrIsWrittenByTheFetchAlone : Prop :=
  State.reset.ir = 0x00#8 ∧
  (∀ s t : State, step s = .next t → t.ir = s.memRead s.pc.toNat) ∧
  (∀ (i : Instr) (s : State) (v : Byte),
    exec i { s with ir := v } = onNext (fun t => { t with ir := v }) (exec i s)) ∧
  (∀ (s : State) (v : Byte), step { s with ir := v } = step s) ∧
  ∀ s : State, ¬s.CanStep → ∀ k, (run k s).ir = s.ir

/-- R25: the output stream is empty at reset and append-only; a step appends the one value of `PRN`'s
register or nothing, and the core never reads the stream back. -/
def Obligations.OutputIsAppendOnlyAndNeverReadBack : Prop :=
  State.reset.out = [] ∧
  (∀ s t : State, s.cfg.wf = true → step s = .next t →
    t.out = s.out ++
      if s.memRead s.pc.toNat = s.cfg.opcodes.prn then
        [s.readReg (ridx (s.memRead (s.pc + 1#8).toNat))] else []) ∧
  ∀ (s : State) (pre : List Byte),
    step { s with out := pre ++ s.out } = onNext (fun t => { t with out := pre ++ t.out }) (step s)

/-- The status of R34, in states that meet the invariant: the four are told apart by the stop flag, the
fault record and the limit (decision D20). -/
def Obligations.StatusIsAFunctionOfTheState : Prop :=
  ∀ s : State, s.Inv →
    (s.status = .running ↔ s.CanStep) ∧
    (s.status = .halted ↔ s.halted = true) ∧
    (s.status = .faulted ↔ s.fault ≠ none) ∧
    (s.status = .limitExhausted ↔
      s.halted = false ∧ s.fault = none ∧ s.cfg.maxInstructions = some s.icount)

/-- A run has at most one end, and it is named: halted, faulted, or out of steps, the last only with a
configured limit; a safe run that ends, ends halted (R87, R89, R90). -/
def Obligations.EveryRunHasAtMostOneNamedEnd : Prop :=
  ∀ s t : State, RunEndsIn s t →
    (∀ u, RunEndsIn s u → u = t) ∧
    (t.status = .halted ∨ t.status = .faulted ∨
      t.status = .limitExhausted ∧ s.cfg.maxInstructions ≠ none) ∧
    (SafeRun s → t.status = .halted)

/-! ### The instructions, one rule each -/

/-- R100, `LDI Ra,imm`: `R[A]` becomes the literal; nothing else is written. -/
def Obligations.LdiWritesTheLiteral : Prop :=
  ∀ (s : State) (a imm : Byte),
    ExecGives s (.ldi a imm) [.reg (ridx a)] (fun t => t.readReg (ridx a) = imm) ∧
    (Ready s (.ldi a imm) →
      StepGives s (.ldi a imm) [.reg (ridx a), .pc] fun t =>
        t.readReg (ridx a) = imm ∧ t.pc = s.pc + 3#8)

/-- R102, `PRN Ra`: the output gains the value of `R[A]`; nothing else is written. -/
def Obligations.PrnEmitsTheRegister : Prop :=
  ∀ (s : State) (a : Byte),
    ExecGives s (.prn a) [.out] (fun t => t.out = s.out ++ [s.readReg (ridx a)]) ∧
    (Ready s (.prn a) →
      StepGives s (.prn a) [.out, .pc] fun t =>
        t.out = s.out ++ [s.readReg (ridx a)] ∧ t.pc = s.pc + 2#8)

/-- R112, `MUL Ra,Rb`: `R[A]` becomes the product modulo 256; no flag is written. -/
def Obligations.MulWritesTheProductModulo256 : Prop :=
  ∀ (s : State) (a b : Byte),
    ExecGives s (.mul a b) [.reg (ridx a)] (fun t =>
      (t.readReg (ridx a)).toNat =
        ((s.readReg (ridx a)).toNat * (s.readReg (ridx b)).toNat) % 256) ∧
    (Ready s (.mul a b) →
      StepGives s (.mul a b) [.reg (ridx a), .pc] fun t =>
        (t.readReg (ridx a)).toNat =
          ((s.readReg (ridx a)).toNat * (s.readReg (ridx b)).toNat) % 256 ∧ t.pc = s.pc + 3#8)

/-- R113, `ADD Ra,Rb`: `R[A]` becomes the sum modulo 256; no flag is written. -/
def Obligations.AddWritesTheSumModulo256 : Prop :=
  ∀ (s : State) (a b : Byte),
    ExecGives s (.add a b) [.reg (ridx a)] (fun t =>
      (t.readReg (ridx a)).toNat =
        ((s.readReg (ridx a)).toNat + (s.readReg (ridx b)).toNat) % 256) ∧
    (Ready s (.add a b) →
      StepGives s (.add a b) [.reg (ridx a), .pc] fun t =>
        (t.readReg (ridx a)).toNat =
          ((s.readReg (ridx a)).toNat + (s.readReg (ridx b)).toNat) % 256 ∧ t.pc = s.pc + 3#8)

/-- R114, `AND Ra,Rb`: bit `k` of `R[A]` becomes the conjunction of the bits; no flag is written. -/
def Obligations.AndWritesTheBitwiseConjunction : Prop :=
  ∀ (s : State) (a b : Byte),
    ExecGives s (.and a b) [.reg (ridx a)] (fun t => ∀ k < 8,
      (t.readReg (ridx a)).getLsbD k =
        ((s.readReg (ridx a)).getLsbD k && (s.readReg (ridx b)).getLsbD k)) ∧
    (Ready s (.and a b) →
      StepGives s (.and a b) [.reg (ridx a), .pc] fun t =>
        (∀ k < 8, (t.readReg (ridx a)).getLsbD k =
          ((s.readReg (ridx a)).getLsbD k && (s.readReg (ridx b)).getLsbD k)) ∧ t.pc = s.pc + 3#8)

/-- R116, `CMP Ra,Rb`: all of `fl` becomes E, L or G by the unsigned comparison; no register changes. -/
def Obligations.CmpSetsExactlyOneFlag : Prop :=
  ∀ (s : State) (a b : Byte),
    ExecGives s (.cmp a b) [.fl] (fun t =>
      t.fl = if (s.readReg (ridx a)).toNat = (s.readReg (ridx b)).toNat then 0x01#8
        else if (s.readReg (ridx a)).toNat < (s.readReg (ridx b)).toNat then 0x02#8 else 0x04#8) ∧
    (Ready s (.cmp a b) →
      StepGives s (.cmp a b) [.fl, .pc] fun t =>
        (t.fl = if (s.readReg (ridx a)).toNat = (s.readReg (ridx b)).toNat then 0x01#8
          else if (s.readReg (ridx a)).toNat < (s.readReg (ridx b)).toNat then 0x02#8 else 0x04#8) ∧
        t.pc = s.pc + 3#8)

/-- R117, `INC Ra`: `R[A]` becomes itself plus 1 modulo 256; no flag is written. -/
def Obligations.IncAddsOneModulo256 : Prop :=
  ∀ (s : State) (a : Byte),
    ExecGives s (.inc a) [.reg (ridx a)] (fun t =>
      (t.readReg (ridx a)).toNat = ((s.readReg (ridx a)).toNat + 1) % 256) ∧
    (Ready s (.inc a) →
      StepGives s (.inc a) [.reg (ridx a), .pc] fun t =>
        (t.readReg (ridx a)).toNat = ((s.readReg (ridx a)).toNat + 1) % 256 ∧ t.pc = s.pc + 2#8)

/-- R118, `DEC Ra`: `R[A]` becomes itself minus 1 modulo 256; no flag is written. -/
def Obligations.DecSubtractsOneModulo256 : Prop :=
  ∀ (s : State) (a : Byte),
    ExecGives s (.dec a) [.reg (ridx a)] (fun t =>
      ((t.readReg (ridx a)).toNat : Int) = ((s.readReg (ridx a)).toNat - 1 : Int) % 256) ∧
    (Ready s (.dec a) →
      StepGives s (.dec a) [.reg (ridx a), .pc] fun t =>
        ((t.readReg (ridx a)).toNat : Int) = ((s.readReg (ridx a)).toNat - 1 : Int) % 256 ∧
        t.pc = s.pc + 2#8)

/-- R130, `PUSH Ra`: `sp` goes down by one modulo 256 and the cell at the new `sp` gets `R[A]`; every
other cell and register is as before, also where the cell is one of the instruction's own bytes. -/
def Obligations.PushStoresBelowTheStack : Prop :=
  ∀ (s : State) (a : Byte),
    ExecGives s (.push a) [.sp, .cell s.pushAddr] (fun t =>
      t.sp = s.sp - 1#8 ∧ t.memRead t.sp.toNat = s.readReg (ridx a)) ∧
    (Ready s (.push a) →
      StepGives s (.push a) [.sp, .cell s.pushAddr, .pc] fun t =>
        t.sp = s.sp - 1#8 ∧ t.memRead t.sp.toNat = s.readReg (ridx a) ∧ t.pc = s.pc + 2#8)

/-- R131, `POP Ra`: `R[A]` gets the byte at `sp`, and `sp` goes up by one modulo 256; memory keeps every
byte. -/
def Obligations.PopLoadsTheTopOfStack : Prop :=
  ∀ (s : State) (a : Byte),
    ExecGives s (.pop a) [.reg (ridx a), .sp] (fun t =>
      t.readReg (ridx a) = s.memRead s.sp.toNat ∧ t.sp = s.sp + 1#8) ∧
    (Ready s (.pop a) →
      StepGives s (.pop a) [.reg (ridx a), .sp, .pc] fun t =>
        t.readReg (ridx a) = s.memRead s.sp.toNat ∧ t.sp = s.sp + 1#8 ∧ t.pc = s.pc + 2#8)

/-- R140, `CALL Ra`: the address of the next instruction is pushed and `pc` becomes `R[A]`. -/
def Obligations.CallPushesTheReturnAddress : Prop :=
  ∀ (s : State) (a : Byte),
    ExecGives s (.call a) [.sp, .cell s.pushAddr, .pc] (fun t =>
      t.sp = s.sp - 1#8 ∧ t.memRead t.sp.toNat = s.pc ∧ t.pc = s.readReg (ridx a)) ∧
    (Ready s (.call a) →
      StepGives s (.call a) [.sp, .cell s.pushAddr, .pc] fun t =>
        t.sp = s.sp - 1#8 ∧ t.memRead t.sp.toNat = s.pc + 2#8 ∧ t.pc = s.readReg (ridx a))

/-- R142, `RET`: `pc` becomes the byte at `sp`, and `sp` goes up by one; memory keeps every byte. -/
def Obligations.RetJumpsToTheTopOfStack : Prop :=
  ∀ s : State,
    ExecGives s .ret [.pc, .sp] (fun t => t.pc = s.memRead s.sp.toNat ∧ t.sp = s.sp + 1#8) ∧
    (Ready s .ret →
      StepGives s .ret [.pc, .sp] fun t => t.pc = s.memRead s.sp.toNat ∧ t.sp = s.sp + 1#8)

/-- R144, `JMP Ra`: `pc` becomes `R[A]`, any byte, unchecked. -/
def Obligations.JmpGoesToTheRegister : Prop :=
  ∀ (s : State) (a : Byte),
    ExecGives s (.jmp a) [.pc] (fun t => t.pc = s.readReg (ridx a)) ∧
    (Ready s (.jmp a) → StepGives s (.jmp a) [.pc] fun t => t.pc = s.readReg (ridx a))

/-- R146, `JEQ Ra`: `pc` becomes `R[A]` when bit 0 of `fl` is set, and is else the next instruction's. -/
def Obligations.JeqJumpsWhenEIsSet : Prop :=
  ∀ (s : State) (a : Byte),
    ExecGives s (.jeq a) [.pc] (fun t =>
      t.pc = if s.fl.getLsbD 0 = true then s.readReg (ridx a) else s.pc) ∧
    (Ready s (.jeq a) →
      StepGives s (.jeq a) [.pc] fun t =>
        t.pc = if s.fl.getLsbD 0 = true then s.readReg (ridx a) else s.pc + 2#8)

/-- R148, `JNE Ra`: `pc` becomes `R[A]` when bit 0 of `fl` is clear, and is else the next instruction's. -/
def Obligations.JneJumpsWhenEIsClear : Prop :=
  ∀ (s : State) (a : Byte),
    ExecGives s (.jne a) [.pc] (fun t =>
      t.pc = if s.fl.getLsbD 0 = false then s.readReg (ridx a) else s.pc) ∧
    (Ready s (.jne a) →
      StepGives s (.jne a) [.pc] fun t =>
        t.pc = if s.fl.getLsbD 0 = false then s.readReg (ridx a) else s.pc + 2#8)

/-- R160, `HLT`: the stop flag is set, `pc` is past the instruction, and nothing else is written.  That
the flag stays readable state is the spec's decision D10 (log entry 10). -/
def Obligations.HltSetsTheStopFlag : Prop :=
  ∀ s : State,
    ExecGives s .hlt [.halted] (fun t => t.halted = true) ∧
    (Ready s .hlt →
      StepGives s .hlt [.halted, .pc] fun t => t.halted = true ∧ t.pc = s.pc + 1#8)

/-! ### Laws across instructions -/

/-- R119: with the same register as both operands, both values are read before the write: `ADD` doubles,
`MUL` squares, `AND` leaves the register as it is, and `CMP` sets E. -/
def Obligations.SameRegisterAsBothOperands : Prop :=
  ∀ (s : State) (a b : Byte), ridx a = ridx b →
    (∃ t, exec (.add a b) s = .next t ∧
      (t.readReg (ridx a)).toNat = (2 * (s.readReg (ridx a)).toNat) % 256) ∧
    (∃ t, exec (.mul a b) s = .next t ∧
      (t.readReg (ridx a)).toNat = ((s.readReg (ridx a)).toNat ^ 2) % 256) ∧
    (∃ t, exec (.and a b) s = .next t ∧ ∀ r, t.readReg r = s.readReg r) ∧
    ∃ t, exec (.cmp a b) s = .next t ∧ t.fl = 0x01#8

/-- Bits 7:3 of a register operand byte are ignored by every instruction: it means the same as the
well-formed one with those bits clear.  This is the spec's decision D2 (R67, log entry 2). -/
def Obligations.HighOperandBitsAreIgnored : Prop :=
  ∀ (i : Instr) (s : State), i.canonical.wf = true ∧ exec i s = exec i.canonical s

/-- R149: after any `CMP`, `JEQ` transfers control exactly when the values compared were equal and `JNE`
exactly when they were not; in every state exactly one of the two would transfer control; and no
instruction's next `pc` depends on a bit of `fl` other than E. -/
def Obligations.ConditionalJumpsFollowTheCompare : Prop :=
  (∀ (s : State) (a b c : Byte), ∃ t, exec (.cmp a b) s = .next t ∧
    (∃ u, exec (.jeq c) t = .next u ∧
      u.pc = if s.readReg (ridx a) = s.readReg (ridx b) then s.readReg (ridx c) else s.pc) ∧
    ∃ u, exec (.jne c) t = .next u ∧
      u.pc = if s.readReg (ridx a) = s.readReg (ridx b) then s.pc else s.readReg (ridx c)) ∧
  (∀ (s : State) (c : Byte), ∃ t u, exec (.jeq c) s = .next t ∧ exec (.jne c) s = .next u ∧
    ((t.pc = s.readReg (ridx c) ∧ u.pc = s.pc) ∨ (t.pc = s.pc ∧ u.pc = s.readReg (ridx c)))) ∧
  ∀ (i : Instr) (s t u : State) (v : Byte), v.getLsbD 0 = s.fl.getLsbD 0 →
    exec i s = .next t → exec i { s with fl := v } = .next u → u.pc = t.pc

/-- R132: a `POP` reached with the `sp` and the cell that a `PUSH` left restores `sp` and gets the pushed
value, at any `sp`; any sequence of as many pushes as pops leaves `sp` as it was; and pops return pushed
bytes in last-in first-out order: the `k`-th pop gets the value of the `k`-th last push, unless a later
pop overwrites its register. -/
def Obligations.BalancedPushesAndPopsReverse : Prop :=
  (∀ (s t t' : State) (a b : Byte), exec (.push a) s = .next t →
    t'.sp = t.sp → t'.memRead t'.sp.toNat = t.memRead t.sp.toNat →
    ∃ u, exec (.pop b) t' = .next u ∧ u.sp = s.sp ∧
      u.readReg (ridx b) = s.readReg (ridx a)) ∧
  (∀ (s : State) (is : List Instr), (∀ i ∈ is, i.mnemonic = .push ∨ i.mnemonic = .pop) →
    (is.filter fun i => i.mnemonic == .push).length = (is.filter fun i => i.mnemonic == .pop).length →
    ∃ t, execAll is s = .next t ∧ t.sp = s.sp) ∧
  ∀ (s : State) (as bs : List Byte), as.length = bs.length → as.length ≤ 256 →
    ∃ t u, execAll (as.map .push) s = .next t ∧ execAll (bs.map .pop) t = .next u ∧ u.sp = s.sp ∧
      ∀ k < bs.length, (∀ j < bs.length, k < j → ridx (bs.getD j 0) ≠ ridx (bs.getD k 0)) →
        u.readReg (ridx (bs.getD k 0)) = s.readReg (ridx (as.getD (as.length - 1 - k) 0))

/-- R143: a `RET` reached with the stack balanced and the saved byte intact resumes at the instruction
after the `CALL`, at the `CALL`'s address plus 2; calls nest, each level costing one byte of stack, to
the depth of the whole memory, and as many returns undo them. -/
def Obligations.ReturnResumesAfterTheCall : Prop :=
  (∀ (s t t' : State) (a : Byte), Ready s (.call a) → step s = .next t →
    t'.sp = t.sp → t'.memRead t'.sp.toNat = t.memRead t.sp.toNat →
    ∃ u, exec .ret t' = .next u ∧ u.pc = s.pc + 2#8 ∧ u.sp = s.sp) ∧
  ∀ (s : State) (as : List Byte), as.length ≤ 256 →
    ∃ t u, execAll (as.map .call) s = .next t ∧ t.sp = s.sp - BitVec.ofNat 8 as.length ∧
      execAll (List.replicate as.length .ret) t = .next u ∧ u.pc = s.pc ∧ u.sp = s.sp

/-- Which instructions write the control state (R36, R15, R18, R21, R22): `fl` only `CMP`, `sp` only the
four stack instructions, the stop flag only `HLT`, the output only `PRN`, `pc` only control transfers;
`ir`, the fault record, the count, the configuration and every memory cell but the one a push stores to
(R41) none. -/
def Obligations.ControlStateWriters : Prop :=
  ∀ (i : Instr) (s t : State), exec i s = .next t →
    (t.fl ≠ s.fl → i.mnemonic = .cmp) ∧
    (t.sp ≠ s.sp → i.mnemonic ∈ [.push, .pop, .call, .ret]) ∧
    (t.halted ≠ s.halted → i.mnemonic = .hlt) ∧
    (t.out ≠ s.out → i.mnemonic = .prn) ∧
    (t.pc ≠ s.pc → i.mnemonic ∈ [.call, .ret, .jmp, .jeq, .jne]) ∧
    UnchangedExcept ([.fl, .sp, .halted, .out, .pc] ++
      (List.finRange 8).map .reg ++ [.cell s.pushAddr]) s t

/-- Which instructions write a general register, and which one (R12): only `LDI`, the five register
operations of the ALU and `POP`, and only the register of operand A. -/
def Obligations.RegisterWriters : Prop :=
  ∀ (i : Instr) (s t : State) (r : RegIdx), exec i s = .next t → t.readReg r ≠ s.readReg r →
    i.mnemonic ∈ [.ldi, .mul, .add, .and, .inc, .dec, .pop] ∧
    i.operands.head?.map ridx = some r

/-- Memory changes only by `PUSH` and `CALL`, and only at `sp -8 1` (R41). -/
def Obligations.OnlyPushAndCallWriteMemory : Prop :=
  ∀ (s t : State) (a : Nat), s.cfg.wf = true → step s = .next t → t.memRead a ≠ s.memRead a →
    (s.memRead s.pc.toNat = s.cfg.opcodes.push ∨ s.memRead s.pc.toNat = s.cfg.opcodes.call) ∧
    a % 256 = (s.sp.toNat + 255) % 256

/-- The flags are read only by `JEQ` and `JNE`, and only bit 0 of them: for every other instruction the
whole of `fl`, and for these two the bits above 0, carry through with no influence (R17, R19). -/
def Obligations.OnlyEIsEverRead : Prop :=
  ∀ (i : Instr) (s : State) (v : Byte),
    (i.mnemonic = .cmp → exec i { s with fl := v } = exec i s) ∧
    (i.mnemonic ≠ .cmp →
      (i.mnemonic ∈ [.jeq, .jne] → v.getLsbD 0 = s.fl.getLsbD 0) →
      exec i { s with fl := v } = onNext (fun t => { t with fl := v }) (exec i s))

/-- A byte stored by `PUSH` or `CALL` is what the very next step fetches from its cell, as the opcode or
as an operand (R49): it is the next `ir` where the cell is the one at the new `pc`, and byte `k` of the
instruction the next step runs where the cell is `k` addresses further on. -/
def Obligations.StoredByteIsFetchedByTheNextStep : Prop :=
  ∀ (s t : State) (i : Instr) (v : Byte),
    ((∃ a, i = .push a ∧ v = s.readReg (ridx a)) ∨ (∃ a, i = .call a ∧ v = s.pc + 2#8)) →
    Ready s i → step s = .next t →
    (∀ u, t.pc = s.pushAddr → step t = .next u → u.ir = v) ∧
    ∀ (j : Instr) (k : Nat), Ready t j → k ≤ j.arity → t.pc + BitVec.ofNat 8 k = s.pushAddr →
      (encode t.cfg.opcodes j)[k]? = some v

/-! ### Invariant, reset and launch -/

/-- Every step keeps the invariant of R28, the canonical form of the memory and the range of the step
count, from every state that meets it. -/
def Obligations.StepKeepsTheInvariant : Prop :=
  ∀ s t : State, s.Inv → step s = .next t → t.Inv

/-- The reset state of every well-formed configuration meets the invariant. -/
def Obligations.ResetMeetsTheInvariant : Prop :=
  ∀ c : Config, c.wf = true → (State.resetWith c).Inv

/-- Equal reads mean equal memories: a canonical memory is determined by what its 256 cells read as.  The
list form is the model's choice (log entry 25). -/
def Obligations.EqualReadsMeanEqualMemories : Prop :=
  ∀ m n : Memory, m.wf = true → n.wf = true → (∀ a < 256, m.read a = n.read a) → m = n

/-- The values after reset (R27, R200).  Those of the stop flag, the fault record, the count and the
output are the spec's decisions D10, D4, D7 and D9. -/
def Obligations.ResetValues : Prop :=
  (∀ r, State.reset.readReg r = 0x00#8) ∧ (∀ a, State.reset.memRead a = 0x00#8) ∧
  State.reset.pc = 0x00#8 ∧ State.reset.ir = 0x00#8 ∧ State.reset.fl = 0x00#8 ∧
  State.reset.sp = 0xF4#8 ∧ State.reset.halted = false ∧ State.reset.fault = none ∧
  State.reset.icount = 0 ∧ State.reset.out = []

/-- `reset()` in any state, halted and faulted ones too, gives the reset state with the configuration
kept; a step is then possible unless the configured limit is 0 (R30, R88, decisions D11 and D7). -/
def Obligations.ResetLeavesEveryStoppedState : Prop :=
  ∀ s : State, s.reboot = State.resetWith s.cfg ∧
    (s.reboot.CanStep ↔ s.cfg.maxInstructions ≠ some 0)

/-- The launch state (R201, R52, decision D12): an image of at most 256 bytes is loaded from address 0,
the rest of memory is zero and every other part is as after reset; a larger one is refused whole.  The
canonical form of the memory is the model's choice (log entry 25). -/
def Obligations.LaunchLoadsTheImage : Prop :=
  ∀ (c : Config) (bytes : List Byte),
    (bytes.length ≤ 256 → ∃ s, launch c bytes = .ok s ∧
      (∀ a < 256, s.memRead a = bytes.getD a 0x00#8) ∧ Memory.wf s.memory = true ∧
      s = { State.resetWith c with memory := s.memory }) ∧
    (256 < bytes.length → launch c bytes = .error .oversize)

/-- The host's transactions follow the launch sequence (R201, R177, R30, decisions D12, D18 and D11): a fitting
image is loaded once and then the run starts from the launch state; after an image that is too large
the core is as after reset and no run starts; once started, only reset is left to the host. -/
def Obligations.HostMovesFollowTheLaunchSequence : Prop :=
  (∀ (c : Config) (bytes : List Byte), bytes.length ≤ 256 →
    ∃ s, launch c bytes = .ok s ∧
      Session.move ⟨State.resetWith c, .fresh⟩ (.loadImage bytes) = some ⟨s, .loaded⟩ ∧
      Session.move ⟨s, .loaded⟩ .run = some ⟨s, .started⟩ ∧
      ∀ more, Session.move ⟨s, .loaded⟩ (.loadImage more) = none) ∧
  (∀ (c : Config) (bytes : List Byte), 256 < bytes.length →
    Session.move ⟨State.resetWith c, .fresh⟩ (.loadImage bytes) =
      some ⟨State.resetWith c, .loadFailed⟩) ∧
  (∀ s : State, Session.move ⟨s, .loadFailed⟩ .run = none ∧ Session.move ⟨s, .fresh⟩ .run = none) ∧
  ∀ (s : State) (m : HostMove), Session.move ⟨s, .started⟩ m =
    if m = .reset then some ⟨State.resetWith s.cfg, .fresh⟩ else none

/-! ### Text and pins -/

/-- The text of the output stream: each value in the shortest decimal digits and one newline after it
(R103, decision D9). -/
def Obligations.OutputTextIsDecimalLines : Prop :=
  ∀ vs : List Byte, renderOut vs = vs.flatMap fun v => Nat.toDigits 10 v.toNat ++ ['\n']

/-- A text image of one eight-digit line a byte, most significant digit first, reads back as the bytes; a
line of one to eight digits is the binary number it spells; blank lines are ignored (R74).  A line with a
character other than 0 and 1 is malformed: R74 says so of a non-binary token, and that a space, a comment
or a carriage return makes one, which N9 leaves open, is the model's choice (log entry 27). -/
def Obligations.TextImageReadsBack : Prop :=
  (∀ bytes : List Byte,
    parseLines (bytes.map fun v =>
      (List.range 8).map fun k => if v.getLsbD (7 - k) then '1' else '0') = .ok bytes) ∧
  (∀ (digits : List Bool) (ls : List (List Char)) (bytes : List Byte),
    digits ≠ [] → digits.length ≤ 8 → parseLines ls = .ok bytes →
    parseLines ((digits.map fun d => if d then '1' else '0') :: ls) =
      .ok (BitVec.ofNat 8 (Nat.ofDigits 2 (digits.reverse.map Bool.toNat)) :: bytes)) ∧
  (∀ ls : List (List Char), parseLines ([] :: ls) = parseLines ls) ∧
  ∀ (line : List Char) (c : Char) (ls : List (List Char)),
    c ∈ line → c ≠ '0' → c ≠ '1' → parseLines (line :: ls) = .error .malformed

/-- The pins of R35, one clock a step: reset forces the reset state; before `start` the load port writes
one byte a clock; after it a clock is a step where there is one; and `out_valid` pulses, with `R[A]`, in
exactly the clocks that run a `PRN`, so it stays low under reset, before `start`, on an unknown opcode
and on a stopped core.  One step a clock, and what a `start` pulse does in the clocks where R35 is silent
(under reset it is dropped; a load beside it is written), are the model's choice (log entry 26). -/
def Obligations.PinsDriveTheCore : Prop :=
  ∀ (b : Board) (p : PinsIn),
    (p.rst = true → (b.clock p).1 = ⟨State.resetWith b.core.cfg, false⟩) ∧
    (p.rst = false → b.started = false →
      (b.clock p).1 =
        ⟨if p.loadEn then b.core.memWrite p.loadAddr.toNat p.loadData else b.core, p.start⟩) ∧
    (p.rst = false → b.started = true →
      (∀ t, step b.core = .next t → (b.clock p).1 = ⟨t, true⟩) ∧
      (¬b.core.CanStep → (b.clock p).1 = b)) ∧
    (b.core.cfg.wf = true → ∀ v, (b.clock p).2.out = some v ↔
      p.rst = false ∧ b.started = true ∧ ∃ a, Ready b.core (.prn a) ∧ v = b.core.readReg (ridx a))

/-- The other output pins of R35 show the core as the clock left it: `halted` is the stop flag, the fault
pins are the fault record, and `limit_hit` is up exactly when a limit is used up on a core that is
neither halted nor faulted (R34, decision D20).  That they show the state after the clock is the model's
choice (log entry 26). -/
def Obligations.StatusPinsShowTheCore : Prop :=
  ∀ (b : Board) (p : PinsIn),
    (b.clock p).2.halted = (b.clock p).1.core.halted ∧
    (b.clock p).2.fault = (b.clock p).1.core.fault ∧
    ((b.clock p).2.limitHit = true ↔
      (b.clock p).1.core.halted = false ∧ (b.clock p).1.core.fault = none ∧
      ∃ n, (b.clock p).1.core.cfg.maxInstructions = some n ∧ n ≤ (b.clock p).1.core.icount)
end

