-- ==== Sys2Proof/Laws/Decode.lean ====
section
/-! SUPPORT. What the lookup in a well-formed opcode map gives (R65, R66), and the shape of an
instruction's bytes. -/

namespace Sys2Proof

theorem Mnemonic.mem_all (n : Mnemonic) : n ∈ Mnemonic.all := by
  cases n <;> simp [Mnemonic.all]

theorem OpcodeMap.wf_iff (m : OpcodeMap) :
    m.wf = true ↔ m.values.Nodup ∧ ∀ n, arityOf (m.value n) = n.arity := by
  constructor
  · intro h
    simp only [OpcodeMap.wf, OpcodeMap.distinct, OpcodeMap.aritiesAgree, Bool.and_eq_true,
      decide_eq_true_eq, List.all_eq_true, beq_iff_eq] at h
    exact ⟨h.1, fun n => h.2 n n.mem_all⟩
  · rintro ⟨h1, h2⟩
    simp only [OpcodeMap.wf, OpcodeMap.distinct, OpcodeMap.aritiesAgree, Bool.and_eq_true,
      decide_eq_true_eq, List.all_eq_true, beq_iff_eq]
    exact ⟨h1, fun n _ => h2 n⟩

/-- In a well-formed map two mnemonics never share a value (R65). -/
theorem OpcodeMap.value_inj (m : OpcodeMap) (h : m.wf = true) (a b : Mnemonic)
    (e : m.value a = m.value b) : a = b :=
  List.inj_on_of_nodup_map (m.wf_iff.mp h).1 a.mem_all b.mem_all e

/-- The lookup finds a mnemonic exactly when its value is the byte (R66). -/
theorem OpcodeMap.find_eq_some_iff (m : OpcodeMap) (h : m.wf = true) (op : Byte) (n : Mnemonic) :
    m.find op = some n ↔ m.value n = op := by
  unfold OpcodeMap.find
  constructor
  · intro e
    simpa using List.find?_some e
  · intro e
    cases hf : Mnemonic.all.find? fun k => m.value k == op with
    | none =>
      have := List.find?_eq_none.mp hf n n.mem_all
      simp [e] at this
    | some k =>
      have hk : m.value k = op := by simpa using List.find?_some hf
      rw [m.value_inj h k n (hk.trans e.symm)]

/-- The lookup finds nothing exactly for the unknown opcodes (R69). -/
theorem OpcodeMap.find_eq_none_iff (m : OpcodeMap) (op : Byte) :
    m.find op = none ↔ op ∉ m.values := by
  simp only [OpcodeMap.find, List.find?_eq_none, OpcodeMap.values, List.mem_map, beq_iff_eq]
  exact ⟨fun h ⟨n, hn, e⟩ => h n hn e, fun h n hn e => h ⟨n, hn, e⟩⟩

/-- The values of R64 satisfy R65. -/
theorem standardOpcodes_wf : standardOpcodes.wf = true := by decide

@[simp] theorem Instr.operands_length (i : Instr) : i.operands.length = i.arity := by
  cases i <;> rfl

end Sys2Proof
end

