-- ==== Sys2Proof/Laws/Memory.lean ====
section
/-! SUPPORT. The laws of the memory list: what a read sees after a write (R42, R43), and that writing
keeps the canonical form. -/

/-- A byte read as a number, with the width and size of R2 as numerals, for arithmetic. -/
theorem Sys2Proof.Byte.toNat_lt (b : Sys2Proof.Byte) : b.toNat < 256 := b.isLt

namespace Sys2Proof.Machine

theorem Memory.find_clear (a b : Nat) (m : Memory) :
    Memory.find b (Memory.clear a m) = if b = a then Memory.unlisted else Memory.find b m := by
  induction m with
  | nil => simp [Memory.clear, Memory.find]
  | cons c m ih =>
    unfold Memory.clear at ih ⊢
    by_cases hc : c.1 = a
    · simp only [List.filter_cons, hc, bne_self_eq_false, Bool.false_eq_true, ↓reduceIte, ih,
        Memory.find]
      by_cases hb : b = a
      · simp [hb]
      · simp [hb, Ne.symm hb]
    · simp only [List.filter_cons, bne_iff_ne, ne_eq, hc, not_false_eq_true, ↓reduceIte,
        Memory.find, ih]
      by_cases hb : c.1 = b <;> by_cases hba : b = a <;> simp_all

theorem Memory.find_place (a b : Nat) (v : Byte) (m : Memory) (h : ∀ c ∈ m, c.1 ≠ a) :
    Memory.find b (Memory.place a v m) = if b = a then v else Memory.find b m := by
  induction m with
  | nil =>
    by_cases hb : b = a
    · simp [Memory.place, Memory.find, hb]
    · simp [Memory.place, Memory.find, hb, Ne.symm hb]
  | cons c m ih =>
    have hc : c.1 ≠ a := h c (by simp)
    have ih := ih fun d hd => h d (by simp [hd])
    by_cases hlt : a < c.1
    · by_cases hb : b = a
      · simp [Memory.place, Memory.find, hlt, hb]
      · simp [Memory.place, Memory.find, hlt, hb, Ne.symm hb]
    · by_cases hb : c.1 = b
      · subst hb
        simp [Memory.place, Memory.find, hlt, hc]
      · simp [Memory.place, Memory.find, hlt, hb, ih]

theorem Memory.clear_ne (a : Nat) (m : Memory) : ∀ c ∈ Memory.clear a m, c.1 ≠ a := by
  intro c hc
  simpa [Memory.clear] using (List.mem_filter.mp hc).2

/-- A read after a write (R42, R43): the cell written reads as the byte written, and every other cell
reads as before, whatever list the memory is. -/
theorem Memory.read_write (m : Memory) (a b : Nat) (v : Byte) :
    (m.write a v).read b =
      if b % Config.memSize = a % Config.memSize then v else m.read b := by
  unfold Memory.read Memory.write
  by_cases hv : v = Memory.unlisted
  · simp only [hv, ↓reduceIte, Memory.find_clear]
  · simp only [hv, ↓reduceIte, Memory.find_place _ _ _ _ (Memory.clear_ne _ _), Memory.find_clear]
    split <;> rfl

/-- A read sees an address only modulo 256 (R44). -/
theorem Memory.read_mod (m : Memory) (a : Nat) : m.read (a % Config.memSize) = m.read a := by
  simp [Memory.read]

theorem Memory.wf_cons (c : Host.Cell) (m : Memory) :
    Memory.wf (c :: m) = true ↔
      c.1 < Config.memSize ∧ c.2 ≠ Memory.unlisted ∧ (∀ d ∈ m, c.1 < d.1) ∧ Memory.wf m = true := by
  simp only [Memory.wf, Bool.and_eq_true, decide_eq_true_eq, bne_iff_ne, List.all_eq_true, and_assoc]

theorem Memory.wf_clear (a : Nat) (m : Memory) (h : Memory.wf m = true) :
    Memory.wf (Memory.clear a m) = true := by
  induction m with
  | nil => exact h
  | cons c m ih =>
    obtain ⟨h1, h2, h3, h4⟩ := (Memory.wf_cons c m).mp h
    have ih := ih h4
    unfold Memory.clear at ih ⊢
    rw [List.filter_cons]
    split
    · exact (Memory.wf_cons _ _).mpr ⟨h1, h2, fun d hd => h3 d (List.mem_filter.mp hd).1, ih⟩
    · exact ih

theorem Memory.mem_place (a : Nat) (v : Byte) (m : Memory) (d : Host.Cell)
    (h : d ∈ Memory.place a v m) : d = (a, v) ∨ d ∈ m := by
  induction m with
  | nil => simpa [Memory.place] using h
  | cons c m ih =>
    unfold Memory.place at h
    split at h
    · simpa using h
    · rcases List.mem_cons.mp h with rfl | h
      · simp
      · rcases ih h with h | h <;> simp [h]

theorem Memory.wf_place (a : Nat) (v : Byte) (m : Memory) (ha : a < Config.memSize)
    (hv : v ≠ Memory.unlisted) (hm : ∀ c ∈ m, c.1 ≠ a) (h : Memory.wf m = true) :
    Memory.wf (Memory.place a v m) = true := by
  induction m with
  | nil => simp_all [Memory.place, Memory.wf]
  | cons c m ih =>
    obtain ⟨h1, h2, h3, h4⟩ := (Memory.wf_cons c m).mp h
    have hc : c.1 ≠ a := hm c (by simp)
    unfold Memory.place
    split
    · rename_i hlt
      refine (Memory.wf_cons _ _).mpr ⟨ha, hv, fun d hd => ?_, h⟩
      rcases List.mem_cons.mp hd with rfl | hd
      · exact hlt
      · exact Nat.lt_trans hlt (h3 d hd)
    · refine (Memory.wf_cons _ _).mpr ⟨h1, h2, fun d hd => ?_, ih (fun d hd => hm d (by simp [hd])) h4⟩
      rcases Memory.mem_place _ _ _ _ hd with rfl | hd
      · show c.1 < a
        omega
      · exact h3 d hd

/-- A write keeps the canonical form. -/
theorem Memory.wf_write (m : Memory) (a : Nat) (v : Byte) (h : Memory.wf m = true) :
    Memory.wf (m.write a v) = true := by
  unfold Memory.write
  split
  · exact Memory.wf_clear _ _ h
  · exact Memory.wf_place _ _ _ (Nat.mod_lt _ (by decide)) ‹_› (Memory.clear_ne _ _)
      (Memory.wf_clear _ _ h)

/-- The empty memory, which reset leaves, is canonical. -/
theorem Memory.wf_reset (c : Config) : Memory.wf (State.resetWith c).memory = true := rfl

end Sys2Proof.Machine
end

