-- ==== Sys2Proof/Laws/State.lean ====
section
/-! SUPPORT. What each update of the state does to each field: one rewriting lemma per field per update,
and what the two observers, a register read and a memory read, see of an update elsewhere. -/

namespace Sys2Proof.Machine

variable (s : State)

/-! ### `memWrite` -/

@[simp] theorem State.memWrite_regs (a : Nat) (v : Byte) : (s.memWrite a v).regs = s.regs := rfl
@[simp] theorem State.memWrite_memory (a : Nat) (v : Byte) :
    (s.memWrite a v).memory = s.memory.write a v := rfl
@[simp] theorem State.memWrite_pc (a : Nat) (v : Byte) : (s.memWrite a v).pc = s.pc := rfl
@[simp] theorem State.memWrite_ir (a : Nat) (v : Byte) : (s.memWrite a v).ir = s.ir := rfl
@[simp] theorem State.memWrite_fl (a : Nat) (v : Byte) : (s.memWrite a v).fl = s.fl := rfl
@[simp] theorem State.memWrite_sp (a : Nat) (v : Byte) : (s.memWrite a v).sp = s.sp := rfl
@[simp] theorem State.memWrite_halted (a : Nat) (v : Byte) :
    (s.memWrite a v).halted = s.halted := rfl
@[simp] theorem State.memWrite_fault (a : Nat) (v : Byte) : (s.memWrite a v).fault = s.fault := rfl
@[simp] theorem State.memWrite_icount (a : Nat) (v : Byte) :
    (s.memWrite a v).icount = s.icount := rfl
@[simp] theorem State.memWrite_out (a : Nat) (v : Byte) : (s.memWrite a v).out = s.out := rfl
@[simp] theorem State.memWrite_cfg (a : Nat) (v : Byte) : (s.memWrite a v).cfg = s.cfg := rfl
@[simp] theorem State.memWrite_readReg (a : Nat) (v : Byte) (q : RegIdx) :
    (s.memWrite a v).readReg q = s.readReg q := rfl
@[simp] theorem State.memWrite_regOperand (a : Nat) (v : Byte) (b : Byte) :
    (s.memWrite a v).regOperand b = s.regOperand b := rfl

/-! ### `writeReg` -/

@[simp] theorem State.writeReg_regs (r : RegIdx) (v : Byte) :
    (s.writeReg r v).regs = s.regs.set r v := rfl
@[simp] theorem State.writeReg_memory (r : RegIdx) (v : Byte) :
    (s.writeReg r v).memory = s.memory := rfl
@[simp] theorem State.writeReg_pc (r : RegIdx) (v : Byte) : (s.writeReg r v).pc = s.pc := rfl
@[simp] theorem State.writeReg_ir (r : RegIdx) (v : Byte) : (s.writeReg r v).ir = s.ir := rfl
@[simp] theorem State.writeReg_fl (r : RegIdx) (v : Byte) : (s.writeReg r v).fl = s.fl := rfl
@[simp] theorem State.writeReg_sp (r : RegIdx) (v : Byte) : (s.writeReg r v).sp = s.sp := rfl
@[simp] theorem State.writeReg_halted (r : RegIdx) (v : Byte) :
    (s.writeReg r v).halted = s.halted := rfl
@[simp] theorem State.writeReg_fault (r : RegIdx) (v : Byte) :
    (s.writeReg r v).fault = s.fault := rfl
@[simp] theorem State.writeReg_icount (r : RegIdx) (v : Byte) :
    (s.writeReg r v).icount = s.icount := rfl
@[simp] theorem State.writeReg_out (r : RegIdx) (v : Byte) : (s.writeReg r v).out = s.out := rfl
@[simp] theorem State.writeReg_cfg (r : RegIdx) (v : Byte) : (s.writeReg r v).cfg = s.cfg := rfl
@[simp] theorem State.writeReg_memRead (r : RegIdx) (v : Byte) (k : Nat) :
    (s.writeReg r v).memRead k = s.memRead k := rfl

/-! ### `setPc` -/

@[simp] theorem State.setPc_regs (v : Byte) : (s.setPc v).regs = s.regs := rfl
@[simp] theorem State.setPc_memory (v : Byte) : (s.setPc v).memory = s.memory := rfl
@[simp] theorem State.setPc_pc (v : Byte) : (s.setPc v).pc = v := rfl
@[simp] theorem State.setPc_ir (v : Byte) : (s.setPc v).ir = s.ir := rfl
@[simp] theorem State.setPc_fl (v : Byte) : (s.setPc v).fl = s.fl := rfl
@[simp] theorem State.setPc_sp (v : Byte) : (s.setPc v).sp = s.sp := rfl
@[simp] theorem State.setPc_halted (v : Byte) : (s.setPc v).halted = s.halted := rfl
@[simp] theorem State.setPc_fault (v : Byte) : (s.setPc v).fault = s.fault := rfl
@[simp] theorem State.setPc_icount (v : Byte) : (s.setPc v).icount = s.icount := rfl
@[simp] theorem State.setPc_out (v : Byte) : (s.setPc v).out = s.out := rfl
@[simp] theorem State.setPc_cfg (v : Byte) : (s.setPc v).cfg = s.cfg := rfl
@[simp] theorem State.setPc_readReg (v : Byte) (q : RegIdx) :
    (s.setPc v).readReg q = s.readReg q := rfl
@[simp] theorem State.setPc_regOperand (v : Byte) (b : Byte) :
    (s.setPc v).regOperand b = s.regOperand b := rfl
@[simp] theorem State.setPc_memRead (v : Byte) (k : Nat) :
    (s.setPc v).memRead k = s.memRead k := rfl

/-! ### `setIr` -/

@[simp] theorem State.setIr_regs (v : Byte) : (s.setIr v).regs = s.regs := rfl
@[simp] theorem State.setIr_memory (v : Byte) : (s.setIr v).memory = s.memory := rfl
@[simp] theorem State.setIr_pc (v : Byte) : (s.setIr v).pc = s.pc := rfl
@[simp] theorem State.setIr_ir (v : Byte) : (s.setIr v).ir = v := rfl
@[simp] theorem State.setIr_fl (v : Byte) : (s.setIr v).fl = s.fl := rfl
@[simp] theorem State.setIr_sp (v : Byte) : (s.setIr v).sp = s.sp := rfl
@[simp] theorem State.setIr_halted (v : Byte) : (s.setIr v).halted = s.halted := rfl
@[simp] theorem State.setIr_fault (v : Byte) : (s.setIr v).fault = s.fault := rfl
@[simp] theorem State.setIr_icount (v : Byte) : (s.setIr v).icount = s.icount := rfl
@[simp] theorem State.setIr_out (v : Byte) : (s.setIr v).out = s.out := rfl
@[simp] theorem State.setIr_cfg (v : Byte) : (s.setIr v).cfg = s.cfg := rfl
@[simp] theorem State.setIr_readReg (v : Byte) (q : RegIdx) :
    (s.setIr v).readReg q = s.readReg q := rfl
@[simp] theorem State.setIr_regOperand (v : Byte) (b : Byte) :
    (s.setIr v).regOperand b = s.regOperand b := rfl
@[simp] theorem State.setIr_memRead (v : Byte) (k : Nat) :
    (s.setIr v).memRead k = s.memRead k := rfl

/-! ### `setFl` -/

@[simp] theorem State.setFl_regs (v : Byte) : (s.setFl v).regs = s.regs := rfl
@[simp] theorem State.setFl_memory (v : Byte) : (s.setFl v).memory = s.memory := rfl
@[simp] theorem State.setFl_pc (v : Byte) : (s.setFl v).pc = s.pc := rfl
@[simp] theorem State.setFl_ir (v : Byte) : (s.setFl v).ir = s.ir := rfl
@[simp] theorem State.setFl_fl (v : Byte) : (s.setFl v).fl = v := rfl
@[simp] theorem State.setFl_sp (v : Byte) : (s.setFl v).sp = s.sp := rfl
@[simp] theorem State.setFl_halted (v : Byte) : (s.setFl v).halted = s.halted := rfl
@[simp] theorem State.setFl_fault (v : Byte) : (s.setFl v).fault = s.fault := rfl
@[simp] theorem State.setFl_icount (v : Byte) : (s.setFl v).icount = s.icount := rfl
@[simp] theorem State.setFl_out (v : Byte) : (s.setFl v).out = s.out := rfl
@[simp] theorem State.setFl_cfg (v : Byte) : (s.setFl v).cfg = s.cfg := rfl
@[simp] theorem State.setFl_readReg (v : Byte) (q : RegIdx) :
    (s.setFl v).readReg q = s.readReg q := rfl
@[simp] theorem State.setFl_regOperand (v : Byte) (b : Byte) :
    (s.setFl v).regOperand b = s.regOperand b := rfl
@[simp] theorem State.setFl_memRead (v : Byte) (k : Nat) :
    (s.setFl v).memRead k = s.memRead k := rfl

/-! ### `setSp` -/

@[simp] theorem State.setSp_regs (v : Byte) : (s.setSp v).regs = s.regs := rfl
@[simp] theorem State.setSp_memory (v : Byte) : (s.setSp v).memory = s.memory := rfl
@[simp] theorem State.setSp_pc (v : Byte) : (s.setSp v).pc = s.pc := rfl
@[simp] theorem State.setSp_ir (v : Byte) : (s.setSp v).ir = s.ir := rfl
@[simp] theorem State.setSp_fl (v : Byte) : (s.setSp v).fl = s.fl := rfl
@[simp] theorem State.setSp_sp (v : Byte) : (s.setSp v).sp = v := rfl
@[simp] theorem State.setSp_halted (v : Byte) : (s.setSp v).halted = s.halted := rfl
@[simp] theorem State.setSp_fault (v : Byte) : (s.setSp v).fault = s.fault := rfl
@[simp] theorem State.setSp_icount (v : Byte) : (s.setSp v).icount = s.icount := rfl
@[simp] theorem State.setSp_out (v : Byte) : (s.setSp v).out = s.out := rfl
@[simp] theorem State.setSp_cfg (v : Byte) : (s.setSp v).cfg = s.cfg := rfl
@[simp] theorem State.setSp_readReg (v : Byte) (q : RegIdx) :
    (s.setSp v).readReg q = s.readReg q := rfl
@[simp] theorem State.setSp_regOperand (v : Byte) (b : Byte) :
    (s.setSp v).regOperand b = s.regOperand b := rfl
@[simp] theorem State.setSp_memRead (v : Byte) (k : Nat) :
    (s.setSp v).memRead k = s.memRead k := rfl

/-! ### `halt` -/

@[simp] theorem State.halt_regs : (s.halt).regs = s.regs := rfl
@[simp] theorem State.halt_memory : (s.halt).memory = s.memory := rfl
@[simp] theorem State.halt_pc : (s.halt).pc = s.pc := rfl
@[simp] theorem State.halt_ir : (s.halt).ir = s.ir := rfl
@[simp] theorem State.halt_fl : (s.halt).fl = s.fl := rfl
@[simp] theorem State.halt_sp : (s.halt).sp = s.sp := rfl
@[simp] theorem State.halt_halted : (s.halt).halted = true := rfl
@[simp] theorem State.halt_fault : (s.halt).fault = s.fault := rfl
@[simp] theorem State.halt_icount : (s.halt).icount = s.icount := rfl
@[simp] theorem State.halt_out : (s.halt).out = s.out := rfl
@[simp] theorem State.halt_cfg : (s.halt).cfg = s.cfg := rfl
@[simp] theorem State.halt_readReg (q : RegIdx) :
    (s.halt).readReg q = s.readReg q := rfl
@[simp] theorem State.halt_regOperand (b : Byte) :
    (s.halt).regOperand b = s.regOperand b := rfl
@[simp] theorem State.halt_memRead (k : Nat) :
    (s.halt).memRead k = s.memRead k := rfl

/-! ### `emit` -/

@[simp] theorem State.emit_regs (v : Byte) : (s.emit v).regs = s.regs := rfl
@[simp] theorem State.emit_memory (v : Byte) : (s.emit v).memory = s.memory := rfl
@[simp] theorem State.emit_pc (v : Byte) : (s.emit v).pc = s.pc := rfl
@[simp] theorem State.emit_ir (v : Byte) : (s.emit v).ir = s.ir := rfl
@[simp] theorem State.emit_fl (v : Byte) : (s.emit v).fl = s.fl := rfl
@[simp] theorem State.emit_sp (v : Byte) : (s.emit v).sp = s.sp := rfl
@[simp] theorem State.emit_halted (v : Byte) : (s.emit v).halted = s.halted := rfl
@[simp] theorem State.emit_fault (v : Byte) : (s.emit v).fault = s.fault := rfl
@[simp] theorem State.emit_icount (v : Byte) : (s.emit v).icount = s.icount := rfl
@[simp] theorem State.emit_out (v : Byte) : (s.emit v).out = s.out ++ [v] := rfl
@[simp] theorem State.emit_cfg (v : Byte) : (s.emit v).cfg = s.cfg := rfl
@[simp] theorem State.emit_readReg (v : Byte) (q : RegIdx) :
    (s.emit v).readReg q = s.readReg q := rfl
@[simp] theorem State.emit_regOperand (v : Byte) (b : Byte) :
    (s.emit v).regOperand b = s.regOperand b := rfl
@[simp] theorem State.emit_memRead (v : Byte) (k : Nat) :
    (s.emit v).memRead k = s.memRead k := rfl

/-! ### `countStep` -/

@[simp] theorem State.countStep_regs : (s.countStep).regs = s.regs := rfl
@[simp] theorem State.countStep_memory : (s.countStep).memory = s.memory := rfl
@[simp] theorem State.countStep_pc : (s.countStep).pc = s.pc := rfl
@[simp] theorem State.countStep_ir : (s.countStep).ir = s.ir := rfl
@[simp] theorem State.countStep_fl : (s.countStep).fl = s.fl := rfl
@[simp] theorem State.countStep_sp : (s.countStep).sp = s.sp := rfl
@[simp] theorem State.countStep_halted : (s.countStep).halted = s.halted := rfl
@[simp] theorem State.countStep_fault : (s.countStep).fault = s.fault := rfl
@[simp] theorem State.countStep_icount :
    (s.countStep).icount = if s.cfg.maxInstructions.isSome then s.icount + 1 else s.icount := rfl
@[simp] theorem State.countStep_out : (s.countStep).out = s.out := rfl
@[simp] theorem State.countStep_cfg : (s.countStep).cfg = s.cfg := rfl
@[simp] theorem State.countStep_readReg (q : RegIdx) :
    (s.countStep).readReg q = s.readReg q := rfl
@[simp] theorem State.countStep_regOperand (b : Byte) :
    (s.countStep).regOperand b = s.regOperand b := rfl
@[simp] theorem State.countStep_memRead (k : Nat) :
    (s.countStep).memRead k = s.memRead k := rfl

/-! ### `takeDecodeError` -/

@[simp] theorem State.takeDecodeError_regs : (s.takeDecodeError).regs = s.regs := rfl
@[simp] theorem State.takeDecodeError_memory : (s.takeDecodeError).memory = s.memory := rfl
@[simp] theorem State.takeDecodeError_pc : (s.takeDecodeError).pc = s.pc := rfl
@[simp] theorem State.takeDecodeError_ir : (s.takeDecodeError).ir = s.ir := rfl
@[simp] theorem State.takeDecodeError_fl : (s.takeDecodeError).fl = s.fl := rfl
@[simp] theorem State.takeDecodeError_sp : (s.takeDecodeError).sp = s.sp := rfl
@[simp] theorem State.takeDecodeError_halted : (s.takeDecodeError).halted = s.halted := rfl
@[simp] theorem State.takeDecodeError_fault : (s.takeDecodeError).fault = some ⟨s.ir, s.pc⟩ := rfl
@[simp] theorem State.takeDecodeError_icount : (s.takeDecodeError).icount = s.icount := rfl
@[simp] theorem State.takeDecodeError_out : (s.takeDecodeError).out = s.out := rfl
@[simp] theorem State.takeDecodeError_cfg : (s.takeDecodeError).cfg = s.cfg := rfl
@[simp] theorem State.takeDecodeError_readReg (q : RegIdx) :
    (s.takeDecodeError).readReg q = s.readReg q := rfl
@[simp] theorem State.takeDecodeError_regOperand (b : Byte) :
    (s.takeDecodeError).regOperand b = s.regOperand b := rfl
@[simp] theorem State.takeDecodeError_memRead (k : Nat) :
    (s.takeDecodeError).memRead k = s.memRead k := rfl

end Sys2Proof.Machine
end

