-- ==== Sys2Proof/Laws/Ops.lean ====
section
/-! SUPPORT. One lemma per shared operation over registers, operands, memory and the stack, which says
once what it does; later proofs cite these and do not unfold the operations. -/

namespace Sys2Proof.Machine

/-- A register reads back what was written, and the others keep their values (R10). -/
theorem State.readReg_writeReg (s : State) (r q : RegIdx) (v : Byte) :
    (s.writeReg r v).readReg q = if q = r then v else s.readReg q := by
  unfold State.writeReg State.readReg
  by_cases h : q = r
  · simp [h]
  · have : (r : Nat) ≠ q := fun e => h (Fin.ext e.symm)
    simp [h, this]

@[simp] theorem State.regOperand_eq (s : State) (b : Byte) : s.regOperand b = s.readReg (ridx b) := rfl

@[simp] theorem State.setRegOperand_eq (s : State) (b v : Byte) :
    s.setRegOperand b v = s.writeReg (ridx b) v := rfl

@[simp] theorem literal_eq (b : Byte) : literal b = b := rfl

/-- `ridx` is the operand byte modulo 8 (R67). -/
theorem ridx_val (b : Byte) : (ridx b).val = b.toNat % Config.nregs := rfl

/-- Clearing bits 7:3 of an operand byte does not change the register it selects (R67). -/
@[simp] theorem ridx_canonicalOperand (b : Byte) : ridx (canonicalOperand b) = ridx b := by
  apply Fin.ext
  simp only [ridx_val, canonicalOperand, BitVec.toNat_ofNat, Config.xlen, Config.nregs]
  omega

/-- The cleared operand byte is well formed (R67). -/
@[simp] theorem regOperandWf_canonicalOperand (b : Byte) :
    regOperandWf (canonicalOperand b) = true := by
  simp only [regOperandWf, canonicalOperand, BitVec.toNat_ofNat, decide_eq_true_eq, Config.xlen,
    Config.nregs]
  omega

/-- A memory read after a memory write (R42, R43). -/
theorem State.memRead_memWrite (s : State) (a b : Nat) (v : Byte) :
    (s.memWrite a v).memRead b =
      if b % Config.memSize = a % Config.memSize then v else s.memRead b :=
  Memory.read_write s.memory a b v

/-- The same for addresses held in a byte: they are already reduced (R44). -/
theorem State.memRead_memWrite_byte (s : State) (a b v : Byte) :
    (s.memWrite a.toNat v).memRead b.toNat = if b = a then v else s.memRead b.toNat := by
  rw [State.memRead_memWrite]
  have ha := a.toNat_lt
  have hb := b.toNat_lt
  simp only [Config.memSize, Nat.mod_eq_of_lt ha, Nat.mod_eq_of_lt hb, BitVec.toNat_inj]

/-- What a push does to memory: the byte is at the new `sp` and every other cell is as before (R21). -/
theorem State.memRead_push (s : State) (v b : Byte) :
    (s.push v).memRead b.toNat = if b = s.sp - 1#8 then v else s.memRead b.toNat := by
  unfold State.push State.pushAddr
  rw [State.memRead_memWrite_byte]
  rfl

@[simp] theorem State.push_sp (s : State) (v : Byte) : (s.push v).sp = s.sp - 1#8 := rfl
@[simp] theorem State.push_memory (s : State) (v : Byte) :
    (s.push v).memory = s.memory.write (s.sp - 1#8).toNat v := rfl
@[simp] theorem State.push_regs (s : State) (v : Byte) : (s.push v).regs = s.regs := rfl
@[simp] theorem State.push_readReg (s : State) (v : Byte) (r : RegIdx) :
    (s.push v).readReg r = s.readReg r := rfl
@[simp] theorem State.push_pc (s : State) (v : Byte) : (s.push v).pc = s.pc := rfl
@[simp] theorem State.push_ir (s : State) (v : Byte) : (s.push v).ir = s.ir := rfl
@[simp] theorem State.push_fl (s : State) (v : Byte) : (s.push v).fl = s.fl := rfl
@[simp] theorem State.push_halted (s : State) (v : Byte) : (s.push v).halted = s.halted := rfl
@[simp] theorem State.push_fault (s : State) (v : Byte) : (s.push v).fault = s.fault := rfl
@[simp] theorem State.push_icount (s : State) (v : Byte) : (s.push v).icount = s.icount := rfl
@[simp] theorem State.push_out (s : State) (v : Byte) : (s.push v).out = s.out := rfl
@[simp] theorem State.push_cfg (s : State) (v : Byte) : (s.push v).cfg = s.cfg := rfl

/-- A pop reads the cell at `sp` and moves `sp` up by one (R21). -/
theorem State.top_eq (s : State) : s.top = s.memRead s.sp.toNat := rfl

@[simp] theorem State.dropTop_eq (s : State) : s.dropTop = s.setSp (s.sp + 1#8) := rfl

/-- `CMP` leaves one of three values (R116). -/
theorem cmpFlags_eq (x y : Byte) :
    cmpFlags x y =
      if x = y then 0x01#8 else if x.toNat < y.toNat then 0x02#8 else 0x04#8 := rfl

/-- `JEQ` and `JNE` test bit 0 of `fl` (R19). -/
theorem State.flagE_eq (s : State) : s.flagE = s.fl.getLsbD 0 := rfl

/-- The legal values of `fl`, spelled out (R18). -/
theorem flLegal_iff (v : Byte) :
    flLegal v = true ↔ v = 0x00#8 ∨ v = 0x01#8 ∨ v = 0x02#8 ∨ v = 0x04#8 := by
  simp [flLegal, flagByte, flEBit, flLBit, flGBit, or_assoc]

/-- Loading changes memory only (R52). -/
theorem State.storeFrom_eq (bs : List Byte) (s : State) (a : Nat) :
    s.storeFrom a bs = { s with memory := (s.storeFrom a bs).memory } := by
  induction bs generalizing s a with
  | nil => rfl
  | cons b bs ih => rw [State.storeFrom, ih]; rfl

/-- Loading keeps the canonical form of the memory. -/
theorem State.wf_storeFrom (bs : List Byte) (s : State) (a : Nat) (h : Memory.wf s.memory = true) :
    Memory.wf (s.storeFrom a bs).memory = true := by
  induction bs generalizing s a with
  | nil => exact h
  | cons b bs ih => exact ih _ _ (Memory.wf_write _ _ _ h)

/-- Storing bytes from an address leaves the cells below it alone (R52). -/
theorem State.memRead_storeFrom_below (bs : List Byte) (s : State) (a b : Nat) (hb : b < a)
    (ha : a + bs.length ≤ Config.memSize) : (s.storeFrom a bs).memRead b = s.memRead b := by
  induction bs generalizing s a with
  | nil => rfl
  | cons x bs ih =>
    simp only [List.length_cons, Config.memSize] at ha
    rw [State.storeFrom, ih _ _ (by omega) (by simp only [Config.memSize]; omega),
      State.memRead_memWrite, if_neg]
    simp only [Config.memSize]
    omega

end Sys2Proof.Machine
end

