-- ==== Sys2Proof/Laws/Exec.lean ====
section
/-! SUPPORT. One equation per meaning, over the primitive updates, and what holds of every meaning. -/

namespace Sys2Proof.Machine

variable (s : State)

theorem exec_ldi (a b : Byte) :
    exec (.ldi a b) s = .next (s.writeReg (ridx a) b) := rfl
theorem exec_prn (a : Byte) :
    exec (.prn a) s = .next (s.emit (s.readReg (ridx a))) := rfl
theorem exec_mul (a b : Byte) :
    exec (.mul a b) s = .next (s.writeReg (ridx a) (s.readReg (ridx a) * s.readReg (ridx b))) := rfl
theorem exec_add (a b : Byte) :
    exec (.add a b) s = .next (s.writeReg (ridx a) (s.readReg (ridx a) + s.readReg (ridx b))) := rfl
theorem exec_and (a b : Byte) :
    exec (.and a b) s = .next (s.writeReg (ridx a) (s.readReg (ridx a) &&& s.readReg (ridx b))) := rfl
theorem exec_cmp (a b : Byte) :
    exec (.cmp a b) s = .next (s.setFl (cmpFlags (s.readReg (ridx a)) (s.readReg (ridx b)))) := rfl
theorem exec_inc (a : Byte) :
    exec (.inc a) s = .next (s.writeReg (ridx a) (s.readReg (ridx a) + 1#8)) := rfl
theorem exec_dec (a : Byte) :
    exec (.dec a) s = .next (s.writeReg (ridx a) (s.readReg (ridx a) - 1#8)) := rfl
theorem exec_push (a : Byte) :
    exec (.push a) s = .next (s.push (s.readReg (ridx a))) := rfl
theorem exec_pop (a : Byte) :
    exec (.pop a) s = .next ((s.writeReg (ridx a) s.top).setSp (s.sp + 1#8)) := rfl
theorem exec_call (a : Byte) :
    exec (.call a) s = .next ((s.push s.pc).setPc (s.readReg (ridx a))) := rfl
theorem exec_ret :
    exec .ret s = .next ((s.setPc s.top).setSp (s.sp + 1#8)) := rfl
theorem exec_jmp (a : Byte) :
    exec (.jmp a) s = .next (s.setPc (s.readReg (ridx a))) := rfl
theorem exec_jeq (a : Byte) :
    exec (.jeq a) s = .next (s.setPc (if s.flagE then s.readReg (ridx a) else s.pc)) := rfl
theorem exec_jne (a : Byte) :
    exec (.jne a) s = .next (s.setPc (if !s.flagE then s.readReg (ridx a) else s.pc)) := rfl
theorem exec_hlt :
    exec .hlt s = .next s.halt := rfl

/-- Every instruction has a meaning that completes: `exec` never stops. -/
theorem exec_next (i : Instr) (s : State) : ∃ t, exec i s = .next t := by
  cases i <;> exact ⟨_, rfl⟩

/-- What a meaning never writes: `ir`, the fault record, the step count and the configuration (R36). -/
theorem exec_keeps (i : Instr) (s t : State) (h : exec i s = .next t) :
    t.ir = s.ir ∧ t.fault = s.fault ∧ t.icount = s.icount ∧ t.cfg = s.cfg := by
  cases i <;> cases h <;> exact ⟨rfl, rfl, rfl, rfl⟩

end Sys2Proof.Machine
end

