-- ==== Sys2Proof/Laws/PerInstr.lean ====
section
/-! SUPPORT. The family Length: an instruction's bytes are one opcode byte and its operand bytes (R60),
under every opcode map. -/

namespace Sys2Proof.Laws.Length

/-- The encoding of the instruction has its operand count plus one bytes (R60, R61). -/
def Statement (i : Instr) : Prop := ∀ m : OpcodeMap, (encode m i).length = i.arity + 1

theorem ldi (a b : Byte) : Statement (.ldi a b) := fun _ => rfl
theorem prn (a : Byte) : Statement (.prn a) := fun _ => rfl
theorem mul (a b : Byte) : Statement (.mul a b) := fun _ => rfl
theorem add (a b : Byte) : Statement (.add a b) := fun _ => rfl
theorem and (a b : Byte) : Statement (.and a b) := fun _ => rfl
theorem cmp (a b : Byte) : Statement (.cmp a b) := fun _ => rfl
theorem inc (a : Byte) : Statement (.inc a) := fun _ => rfl
theorem dec (a : Byte) : Statement (.dec a) := fun _ => rfl
theorem push (a : Byte) : Statement (.push a) := fun _ => rfl
theorem pop (a : Byte) : Statement (.pop a) := fun _ => rfl
theorem call (a : Byte) : Statement (.call a) := fun _ => rfl
theorem ret : Statement .ret := fun _ => rfl
theorem jmp (a : Byte) : Statement (.jmp a) := fun _ => rfl
theorem jeq (a : Byte) : Statement (.jeq a) := fun _ => rfl
theorem jne (a : Byte) : Statement (.jne a) := fun _ => rfl
theorem hlt : Statement .hlt := fun _ => rfl

end Sys2Proof.Laws.Length
end

