-- ==== Sys2Proof/Laws/Step.lean ====
section
/-! SUPPORT. What the parts of a step are, and the inversion of a step: the only ways it answers a next
state. -/

namespace Sys2Proof.Machine

/-- A step is taken exactly when there is no reason to stop (R81). -/
theorem stopReason_eq_none_iff (s : State) :
    s.stopReason = none ↔
      s.halted = false ∧ s.fault = none ∧ ∀ n, s.cfg.maxInstructions = some n → s.icount < n := by
  unfold State.stopReason
  cases hh : s.halted <;> cases hf : s.fault <;> cases hn : s.cfg.maxInstructions <;> simp

/-- The only ways a step answers a next state: an instruction's meaning, or the decode error (R85). -/
theorem step_cases (s t : State) (h : step s = .next t) :
    s.stopReason = none ∧
      ((∃ i, s.nextInstr = .ok i ∧ exec i s.enter = .next t) ∨
        (∃ e, s.nextInstr = .error e ∧ t = s.fetch.takeDecodeError)) := by
  unfold step at h
  split at h
  · cases h
  · rename_i hs
    refine ⟨hs, ?_⟩
    split at h
    · exact .inl ⟨_, ‹_›, h⟩
    · cases h
      exact .inr ⟨_, ‹_›, rfl⟩

/-- A step that finds an instruction is that instruction's meaning. -/
theorem step_ok (s : State) (i : Instr) (hs : s.stopReason = none) (hi : s.nextInstr = .ok i) :
    step s = exec i s.enter := by
  simp [step, hs, hi]

/-- A step that finds no instruction takes the decode error. -/
theorem step_error (s : State) (e : DecodeReject) (hs : s.stopReason = none)
    (hi : s.nextInstr = .error e) : step s = .next s.fetch.takeDecodeError := by
  simp [step, hs, hi]

@[simp] theorem State.fetch_ir (s : State) : s.fetch.ir = s.byteAt 0 := rfl
@[simp] theorem State.fetch_pc (s : State) : s.fetch.pc = s.pc := rfl
@[simp] theorem State.enter_ir (s : State) : s.enter.ir = s.byteAt 0 := rfl
@[simp] theorem State.enter_pc (s : State) :
    s.enter.pc = s.pc + BitVec.ofNat 8 (arityOf (s.byteAt 0) + 1) := rfl
@[simp] theorem State.enter_icount (s : State) :
    s.enter.icount = if s.cfg.maxInstructions.isSome then s.icount + 1 else s.icount := rfl
@[simp] theorem State.enter_regs (s : State) : s.enter.regs = s.regs := rfl
@[simp] theorem State.enter_readReg (s : State) (r : RegIdx) : s.enter.readReg r = s.readReg r := rfl
@[simp] theorem State.enter_memory (s : State) : s.enter.memory = s.memory := rfl
@[simp] theorem State.enter_memRead (s : State) (a : Nat) : s.enter.memRead a = s.memRead a := rfl
@[simp] theorem State.enter_fl (s : State) : s.enter.fl = s.fl := rfl
@[simp] theorem State.enter_sp (s : State) : s.enter.sp = s.sp := rfl
@[simp] theorem State.enter_halted (s : State) : s.enter.halted = s.halted := rfl
@[simp] theorem State.enter_fault (s : State) : s.enter.fault = s.fault := rfl
@[simp] theorem State.enter_out (s : State) : s.enter.out = s.out := rfl
@[simp] theorem State.enter_cfg (s : State) : s.enter.cfg = s.cfg := rfl

/-- A step never writes the configuration (R3). -/
theorem step_cfg (s t : State) (h : step s = .next t) : t.cfg = s.cfg := by
  obtain ⟨-, ⟨i, -, hi⟩ | ⟨e, -, rfl⟩⟩ := step_cases s t h
  · exact (exec_keeps i _ _ hi).2.2.2
  · rfl

/-- Induction over a run: what holds at the start and is kept by every step holds of each state reached. -/
theorem run_induction (P : State → Prop) (keep : ∀ s t, P s → step s = .next t → P t) (k : Nat) :
    ∀ s, P s → P (run k s) := by
  induction k with
  | zero => exact fun s h => h
  | succ k ih =>
    intro s h
    unfold run
    split
    · exact ih _ (keep _ _ h ‹_›)
    · exact h
    · exact h

end Sys2Proof.Machine
end

