-- ==== Sys2Proof/Tests/Slice0.lean ====
section
/-! SUPPORT. The model's own tests.  Expected values are from spec/30_encoding.md (words) and
spec/95_test_vectors.md (the vector's name stands in the test's).  After them, one witness for the
hypotheses of each statement that has some. -/

namespace Sys2Proof.Tests

open Sys2Proof.Machine

/-! ### Well-formedness: each check refuses an ill-formed term -/

theorem test_wf_standard_map : standardOpcodes.wf = true := by decide
theorem test_wf_refuses_shared_value :
    ({ standardOpcodes with mul := 0xA0#8 } : OpcodeMap).wf = false := by decide
theorem test_wf_refuses_wrong_arity :
    ({ standardOpcodes with hlt := 0x41#8 } : OpcodeMap).wf = false := by decide
theorem test_wf_refuses_config :
    (⟨{ standardOpcodes with ret := 0xC1#8 }, none⟩ : Config).wf = false := by decide
theorem test_wf_refuses_operand_a : (Instr.ldi 0x08#8 0x00#8).wf = false := by decide
theorem test_wf_refuses_operand_b : (Instr.add 0x07#8 0x08#8).wf = false := by decide
theorem test_wf_refuses_operand_one : (Instr.push 0xFF#8).wf = false := by decide
theorem test_wf_accepts : (Instr.ldi 0x07#8 0xFF#8).wf = true := by decide
theorem test_wf_memory_refuses_order : Memory.wf [(5, 1#8), (4, 1#8)] = false := by decide
theorem test_wf_memory_refuses_zero : Memory.wf [(4, 0#8)] = false := by decide
theorem test_wf_memory_refuses_address : Memory.wf [(256, 1#8)] = false := by decide

/-! ### Decoding: each instruction's word from R62 and R64, first byte lowest -/

theorem test_decode_ldi : decodeTableWord 24 0x050082 = some (.ldi 0x00#8 0x05#8) := by decide
theorem test_decode_prn : decodeTableWord 16 0x0D47 = some (.prn 0x0D#8) := by decide
theorem test_decode_mul : decodeTableWord 24 0x0201A2 = some (.mul 0x01#8 0x02#8) := by decide
theorem test_decode_add : decodeTableWord 24 0x0201A0 = some (.add 0x01#8 0x02#8) := by decide
theorem test_decode_and : decodeTableWord 24 0x0201A8 = some (.and 0x01#8 0x02#8) := by decide
theorem test_decode_cmp : decodeTableWord 24 0x0201A7 = some (.cmp 0x01#8 0x02#8) := by decide
theorem test_decode_inc : decodeTableWord 16 0x0365 = some (.inc 0x03#8) := by decide
theorem test_decode_dec : decodeTableWord 16 0x0366 = some (.dec 0x03#8) := by decide
theorem test_decode_push : decodeTableWord 16 0x0245 = some (.push 0x02#8) := by decide
theorem test_decode_pop : decodeTableWord 16 0x0546 = some (.pop 0x05#8) := by decide
theorem test_decode_call : decodeTableWord 16 0x0150 = some (.call 0x01#8) := by decide
theorem test_decode_ret : decodeTableWord 8 0x11 = some .ret := by decide
theorem test_decode_jmp : decodeTableWord 16 0xFC54 = some (.jmp 0xFC#8) := by decide
theorem test_decode_jeq : decodeTableWord 16 0x0255 = some (.jeq 0x02#8) := by decide
theorem test_decode_jne : decodeTableWord 16 0x0356 = some (.jne 0x03#8) := by decide
theorem test_decode_hlt : decodeTableWord 8 0x01 = some .hlt := by decide
/-- A word shorter than the instruction: the operand bytes are zero. -/
theorem test_decode_short_word : decodeTableWord 8 0x82 = some (.ldi 0x00#8 0x00#8) := by decide
theorem test_decode_x6 : decodeTableWord 24 0x050083 = none := by decide
theorem test_decode_truncated :
    decode standardOpcodes [0x82#8, 0x00#8] = .error (.truncated 0x82#8) := by rfl
theorem test_decode_no_bytes : decode standardOpcodes [] = .error .noBytes := by rfl
theorem test_encode_ldi :
    encode standardOpcodes (.ldi 0x00#8 0x05#8) = [0x82#8, 0x00#8, 0x05#8] := by decide

/-! ### Single steps -/

/-- The reset state with `pc` and bytes stored from there on. -/
def at_ (pc : Byte) (bytes : List Byte) : State :=
  ({ State.reset with pc := pc } : State).storeFrom pc.toNat bytes

/-- The state after one step. -/
def after (s : State) : State := run 1 s

theorem test_ldi_L4 :
    (after (at_ 0x00#8 [0x82#8, 0x0B#8, 0x11#8])).readReg 3 = 0x11#8 := by decide
theorem test_ldi_W1 :
    let t := after (at_ 0xFF#8 [0x82#8, 0x03#8, 0x2A#8])
    t.readReg 3 = 0x2A#8 ∧ t.pc = 0x02#8 := by decide
theorem test_prn_L6 :
    let t := after ((at_ 0x00#8 [0x47#8, 0x04#8]).writeReg 4 0xFF#8)
    t.out = [0xFF#8] ∧ renderOut t.out = ['2', '5', '5', '\n'] := by decide
theorem test_mul_A10 :
    (after (((at_ 0x00#8 [0xA2#8, 0x00#8, 0x01#8]).writeReg 0 0xC8#8).writeReg 1 0x03#8)).readReg 0
      = 0x58#8 := by decide
theorem test_mul_A24 :
    (after ((at_ 0x00#8 [0xA2#8, 0x02#8, 0x02#8]).writeReg 2 0x11#8)).readReg 2 = 0x21#8 := by decide
theorem test_add_A3 :
    let t := after (((at_ 0x00#8 [0xA0#8, 0x00#8, 0x01#8]).writeReg 0 0xC8#8).writeReg 1 0x64#8)
    t.readReg 0 = 0x2C#8 ∧ t.readReg 1 = 0x64#8 := by decide
theorem test_add_A26 :
    (after ((at_ 0x00#8 [0xA0#8, 0x01#8, 0x09#8]).writeReg 1 0x03#8)).readReg 1 = 0x06#8 := by decide
theorem test_and_A13 :
    (after (((at_ 0x00#8 [0xA8#8, 0x00#8, 0x01#8]).writeReg 0 0xCC#8).writeReg 1 0xAA#8)).readReg 0
      = 0x88#8 := by decide
theorem test_cmp_K6 :
    (after (((at_ 0x00#8 [0xA7#8, 0x00#8, 0x01#8]).writeReg 0 0x80#8).writeReg 1 0x7F#8)).fl
      = 0x04#8 := by decide
theorem test_cmp_K3 :
    (after (((at_ 0x00#8 [0xA7#8, 0x00#8, 0x01#8]).writeReg 0 0x2C#8).writeReg 1 0x64#8)).fl
      = 0x02#8 := by decide
theorem test_inc_A18 :
    let t := after ((at_ 0x00#8 [0x65#8, 0x00#8]).writeReg 0 0xFF#8)
    t.readReg 0 = 0x00#8 ∧ t.pc = 0x02#8 := by decide
theorem test_dec_A20 :
    (after (at_ 0x00#8 [0x66#8, 0x00#8])).readReg 0 = 0xFF#8 := by decide
theorem test_push_T3 :
    let t := after (((at_ 0x10#8 [0x45#8, 0x00#8]).setSp 0x00#8).writeReg 0 0x77#8)
    t.sp = 0xFF#8 ∧ t.memRead 0xFF = 0x77#8 := by decide
theorem test_push_T7 :
    let t := after (((at_ 0x10#8 [0x45#8, 0x00#8]).setSp 0x12#8).writeReg 0 0x99#8)
    t.sp = 0x11#8 ∧ t.memRead 0x11 = 0x99#8 ∧ t.pc = 0x12#8 := by decide
theorem test_pop_T2 :
    let t := after (((at_ 0x00#8 [0x46#8, 0x05#8]).setSp 0xF3#8).memWrite 0xF3 0x2A#8)
    t.readReg 5 = 0x2A#8 ∧ t.sp = 0xF4#8 ∧ t.memRead 0xF3 = 0x2A#8 := by decide
theorem test_pop_T4 :
    let t := after (((at_ 0x10#8 [0x46#8, 0x01#8]).setSp 0xFF#8).memWrite 0xFF 0x77#8)
    t.readReg 1 = 0x77#8 ∧ t.sp = 0x00#8 := by decide
theorem test_call_J1 :
    let t := after ((at_ 0x06#8 [0x50#8, 0x01#8]).writeReg 1 0x0C#8)
    t.sp = 0xF3#8 ∧ t.memRead 0xF3 = 0x08#8 ∧ t.pc = 0x0C#8 := by decide
theorem test_call_J3 :
    let t := after (((at_ 0xFE#8 [0x50#8, 0x00#8]).writeReg 0 0x40#8).memWrite 0xF3 0x55#8)
    t.memRead 0xF3 = 0x00#8 ∧ t.pc = 0x40#8 := by decide
theorem test_ret_J2 :
    let t := after (((at_ 0x18#8 [0x11#8]).setSp 0xF3#8).memWrite 0xF3 0x08#8)
    t.pc = 0x08#8 ∧ t.sp = 0xF4#8 := by decide
theorem test_jmp_J15 :
    (after ((at_ 0x00#8 [0x54#8, 0xFC#8]).writeReg 4 0x30#8)).pc = 0x30#8 := by decide
theorem test_jeq_J7 :
    (after (((at_ 0x0C#8 [0x55#8, 0x02#8]).setFl 0x01#8).writeReg 2 0x20#8)).pc = 0x20#8 := by decide
theorem test_jeq_J9 :
    (after (((at_ 0x0C#8 [0x55#8, 0x02#8]).setFl 0x04#8).writeReg 2 0x20#8)).pc = 0x0E#8 := by decide
theorem test_jne_J12 :
    (after (((at_ 0x14#8 [0x56#8, 0x03#8]).setFl 0x02#8).writeReg 3 0x0C#8)).pc = 0x0C#8 := by decide
theorem test_jne_J13 :
    (after (((at_ 0x14#8 [0x56#8, 0x03#8]).setFl 0x01#8).writeReg 3 0x0C#8)).pc = 0x16#8 := by decide
theorem test_hlt_H2 :
    let t := after (at_ 0xFF#8 [0x01#8])
    t.halted = true ∧ t.pc = 0x00#8 ∧ t.status = .halted := by decide
theorem test_unknown_X4 :
    let t := after (at_ 0x20#8 [0xC1#8])
    t.fault = some ⟨0xC1#8, 0x20#8⟩ ∧ t.pc = 0x20#8 ∧ t.ir = 0xC1#8 ∧ t.faultCode = 1 := by decide
theorem test_unknown_X6 :
    let t := after (at_ 0x00#8 [0x83#8, 0x00#8, 0x05#8])
    t.fault = some ⟨0x83#8, 0x00#8⟩ ∧ t.readReg 0 = 0x00#8 := by decide
/-- The run from reset with nothing loaded: the first step faults on the zero byte (X2). -/
theorem test_empty_image_X2 :
    let t := after State.reset
    t.fault = some ⟨0x00#8, 0x00#8⟩ ∧ t.status = .faulted := by decide

/-! ### Words placed for the host, load port, text and pins -/

theorem test_with_fetch_word :
    (after (State.reset.withFetchWord 24 0x050082)).readReg 0 = 0x05#8 := by decide
/-- M7: a short line is the number it spells, and a blank line is ignored. -/
theorem test_text_M7 :
    parseLines [['1', '0', '1'], [], ['0', '0', '0', '0', '0', '0', '0', '1']]
      = .ok [0x05#8, 0x01#8] := by rfl
theorem test_text_M6 : parseLines [['1', '0', '1', '2']] = .error .malformed := by rfl
/-- A started board pulses the value of `PRN` (R35). -/
theorem test_pins_prn :
    (Board.clock ⟨(at_ 0x00#8 [0x47#8, 0x04#8]).writeReg 4 0xFF#8, true⟩
      ⟨false, false, 0#8, 0#8, false⟩).2.out = some 0xFF#8 := by decide
/-- The data pin is idle on an unknown opcode. -/
theorem test_pins_unknown :
    (Board.clock ⟨State.reset, true⟩ ⟨false, false, 0#8, 0#8, false⟩).2 =
      ⟨none, false, some ⟨0x00#8, 0x00#8⟩, false⟩ := by decide
theorem test_session_no_run_before_load :
    Session.move ⟨State.reset, .fresh⟩ .run = none := by decide
theorem test_listing : listing (.ldi 0x01#8 0x0C#8) = ['L', 'D', 'I', ' ', 'R', '1', ',', '1', '2'] := by
  decide
theorem test_write_zero_leaves_the_list :
    (Memory.write [(4, 7#8)] 0x104 0x00#8) = [] := by decide

/-! ### Witnesses: states and operands that meet the hypotheses of the statements -/

/-- The reset state under an instruction limit. -/
def limited (n : Nat) (bytes : List Byte) : State :=
  (State.resetWith ⟨standardOpcodes, some n⟩).storeFrom 0 bytes

theorem canStep_at (pc : Byte) (bytes : List Byte) : (at_ pc bytes).CanStep := by
  unfold at_
  rw [State.storeFrom_eq]
  exact ⟨rfl, rfl, fun _ h => nomatch h⟩

theorem cfg_at (pc : Byte) (bytes : List Byte) : (at_ pc bytes).cfg = defaultConfig := by
  unfold at_
  rw [State.storeFrom_eq]
  rfl

theorem ready_at (pc : Byte) (bytes : List Byte) (i : Instr)
    (h : (at_ pc bytes).window.take (i.arity + 1) = encode standardOpcodes i) :
    Ready (at_ pc bytes) i :=
  ⟨canStep_at pc bytes, by rw [cfg_at]; decide, by rw [cfg_at]; exact h⟩

theorem witness_map_wf : standardOpcodes.wf = true := by decide
theorem witness_decode :
    decode standardOpcodes [0x82#8, 0xFF#8, 0x05#8, 0x01#8] = .ok (.ldi 0xFF#8 0x05#8, [0x01#8]) := by
  rfl
theorem witness_step_runs :
    (at_ 0xFF#8 [0x82#8, 0x03#8, 0x2A#8]).CanStep ∧
    (at_ 0xFF#8 [0x82#8, 0x03#8, 0x2A#8]).cfg.wf = true ∧
    decode (at_ 0xFF#8 [0x82#8, 0x03#8, 0x2A#8]).cfg.opcodes (at_ 0xFF#8 [0x82#8, 0x03#8, 0x2A#8]).window
      = .ok (.ldi 0x03#8 0x2A#8, []) :=
  ⟨canStep_at _ _, by decide, by rfl⟩
theorem witness_no_step_halted : ¬State.reset.halt.CanStep := fun h => nomatch h.1
theorem witness_no_step_faulted : ¬State.reset.takeDecodeError.CanStep := fun h => nomatch h.2.1
theorem witness_no_step_limit : ¬(limited 0 []).CanStep := fun h => absurd (h.2.2 0 rfl) (by decide)
theorem witness_unknown_zero :
    State.reset.CanStep ∧ State.reset.memRead State.reset.pc.toNat ∉ State.reset.cfg.opcodes.values :=
  ⟨⟨rfl, rfl, fun _ h => nomatch h⟩, by decide⟩
theorem witness_unknown_top :
    (at_ 0xFF#8 [0xFF#8]).CanStep ∧
    (at_ 0xFF#8 [0xFF#8]).memRead (at_ 0xFF#8 [0xFF#8]).pc.toNat ∉
      (at_ 0xFF#8 [0xFF#8]).cfg.opcodes.values :=
  ⟨canStep_at _ _, by decide⟩
theorem witness_step_next :
    (at_ 0x0B#8 [0x01#8]).cfg.wf = true ∧ ∃ t, step (at_ 0x0B#8 [0x01#8]) = .next t ∧ t.halted = true :=
  ⟨by decide, _, rfl, by decide⟩
theorem witness_step_faults :
    State.reset.cfg.wf = true ∧ ∃ t, step State.reset = .next t ∧ t.fault ≠ none :=
  ⟨by decide, _, rfl, by decide⟩
theorem witness_limit_step :
    (limited 1 [0x01#8]).cfg.maxInstructions = some 1 ∧ (limited 1 [0x01#8]).icount ≤ 1 ∧
    ∃ t, step (limited 1 [0x01#8]) = .next t :=
  ⟨by decide, by decide, _, rfl⟩
theorem witness_limit_reached :
    (limited 0 []).cfg.maxInstructions = some 0 ∧ (limited 0 []).icount = 0 ∧
    (limited 0 []).halted = false ∧ (limited 0 []).fault = none := by decide
theorem witness_jump_to_itself :
    Ready (at_ 0x00#8 [0x54#8, 0x00#8]) (.jmp 0x00#8) ∧
    (at_ 0x00#8 [0x54#8, 0x00#8]).cfg.maxInstructions = none ∧
    (at_ 0x00#8 [0x54#8, 0x00#8]).readReg (ridx 0x00#8) = (at_ 0x00#8 [0x54#8, 0x00#8]).pc :=
  ⟨ready_at _ _ _ (by decide), by decide, by decide⟩

theorem witness_ready_ldi : Ready (at_ 0xFF#8 [0x82#8, 0xFF#8, 0x2A#8]) (.ldi 0xFF#8 0x2A#8) :=
  ready_at _ _ _ (by decide)
theorem witness_ready_prn : Ready (at_ 0x00#8 [0x47#8, 0x04#8]) (.prn 0x04#8) :=
  ready_at _ _ _ (by decide)
theorem witness_ready_mul : Ready (at_ 0x00#8 [0xA2#8, 0x00#8, 0x01#8]) (.mul 0x00#8 0x01#8) :=
  ready_at _ _ _ (by decide)
theorem witness_ready_add : Ready (at_ 0xFE#8 [0xA0#8, 0x01#8, 0x09#8]) (.add 0x01#8 0x09#8) :=
  ready_at _ _ _ (by decide)
theorem witness_ready_and : Ready (at_ 0x00#8 [0xA8#8, 0x00#8, 0x01#8]) (.and 0x00#8 0x01#8) :=
  ready_at _ _ _ (by decide)
theorem witness_ready_cmp : Ready (at_ 0x00#8 [0xA7#8, 0x03#8, 0x03#8]) (.cmp 0x03#8 0x03#8) :=
  ready_at _ _ _ (by decide)
theorem witness_ready_inc : Ready (at_ 0xFF#8 [0x65#8, 0x06#8]) (.inc 0x06#8) :=
  ready_at _ _ _ (by decide)
theorem witness_ready_dec : Ready (at_ 0x00#8 [0x66#8, 0x07#8]) (.dec 0x07#8) :=
  ready_at _ _ _ (by decide)
theorem witness_ready_push : Ready (at_ 0xF2#8 [0x45#8, 0x00#8]) (.push 0x00#8) :=
  ready_at _ _ _ (by decide)
theorem witness_ready_pop : Ready (at_ 0x00#8 [0x46#8, 0x00#8]) (.pop 0x00#8) :=
  ready_at _ _ _ (by decide)
theorem witness_ready_call : Ready (at_ 0xFE#8 [0x50#8, 0x00#8]) (.call 0x00#8) :=
  ready_at _ _ _ (by decide)
theorem witness_ready_ret : Ready (at_ 0xFF#8 [0x11#8]) .ret := ready_at _ _ _ (by decide)
theorem witness_ready_jmp : Ready (at_ 0x00#8 [0x54#8, 0xFC#8]) (.jmp 0xFC#8) :=
  ready_at _ _ _ (by decide)
theorem witness_ready_jeq : Ready (at_ 0x0C#8 [0x55#8, 0x02#8]) (.jeq 0x02#8) :=
  ready_at _ _ _ (by decide)
theorem witness_ready_jne : Ready (at_ 0x14#8 [0x56#8, 0x03#8]) (.jne 0x03#8) :=
  ready_at _ _ _ (by decide)
theorem witness_ready_hlt : Ready (at_ 0xFF#8 [0x01#8]) .hlt := ready_at _ _ _ (by decide)

theorem witness_same_register : ridx 0x01#8 = ridx 0x09#8 := by decide
theorem witness_balanced :
    ([0x00#8, 0x01#8] : List Byte).length = ([0x02#8, 0x03#8] : List Byte).length ∧
    (∀ j < 2, 0 < j → ridx (([0x02#8, 0x03#8] : List Byte).getD j 0) ≠ ridx 0x02#8) := by decide
theorem witness_pop_after_push :
    ∃ t, exec (.push 0x01#8) (State.reset.setSp 0x00#8) = .next t ∧
      (t.writeReg 1 0x44#8).sp = t.sp ∧
      (t.writeReg 1 0x44#8).memRead (t.writeReg 1 0x44#8).sp.toNat = t.memRead t.sp.toNat :=
  ⟨_, rfl, rfl, rfl⟩
theorem witness_balanced_interleaved :
    (∀ i ∈ [Instr.push 0x00#8, .pop 0x01#8, .pop 0x02#8, .push 0x03#8],
      i.mnemonic = .push ∨ i.mnemonic = .pop) ∧
    ([Instr.push 0x00#8, .pop 0x01#8, .pop 0x02#8, .push 0x03#8].filter
      fun i => i.mnemonic == .push).length =
    ([Instr.push 0x00#8, .pop 0x01#8, .pop 0x02#8, .push 0x03#8].filter
      fun i => i.mnemonic == .pop).length := by decide
theorem witness_balanced_whole_memory :
    (List.replicate 256 (0x00#8 : Byte)).length = (List.replicate 256 (0x07#8 : Byte)).length ∧
    (List.replicate 256 (0x00#8 : Byte)).length ≤ 256 := by
  simp only [List.length_replicate]; decide
theorem witness_nested_calls : (List.replicate 256 (0xFF#8 : Byte)).length ≤ 256 := by
  rw [List.length_replicate]
theorem witness_return :
    Ready (at_ 0xFE#8 [0x50#8, 0x00#8]) (.call 0x00#8) ∧
    ∃ t t', step (at_ 0xFE#8 [0x50#8, 0x00#8]) = .next t ∧ t' = (t.setPc 0x33#8).writeReg 2 0x44#8 ∧
      t'.sp = t.sp ∧ t'.memRead t'.sp.toNat = t.memRead t.sp.toNat :=
  ⟨witness_ready_call, _, _, rfl, rfl, rfl, rfl⟩
theorem witness_exec_next : ∃ t, exec (.pop 0x07#8) State.reset = .next t ∧ t.sp ≠ State.reset.sp :=
  ⟨_, rfl, by decide⟩
theorem witness_register_written :
    ∃ t, exec (.inc 0x07#8) State.reset = .next t ∧ t.readReg 7 ≠ State.reset.readReg 7 :=
  ⟨_, rfl, by decide⟩
theorem witness_memory_written :
    (at_ 0x00#8 [0x50#8, 0x00#8]).cfg.wf = true ∧
    ∃ t, step (at_ 0x00#8 [0x50#8, 0x00#8]) = .next t ∧
      t.memRead 0xF3 ≠ (at_ 0x00#8 [0x50#8, 0x00#8]).memRead 0xF3 :=
  ⟨by decide, _, rfl, by decide⟩
theorem witness_flag_bits : (0x05#8 : Byte).getLsbD 0 = (State.reset.setFl 0x01#8).fl.getLsbD 0 := by
  decide
theorem witness_flag_bits_jump :
    (0x05#8 : Byte).getLsbD 0 = (State.reset.setFl 0x01#8).fl.getLsbD 0 ∧
    ∃ t u, exec (.jeq 0x00#8) (State.reset.setFl 0x01#8) = .next t ∧
      exec (.jeq 0x00#8) { State.reset.setFl 0x01#8 with fl := 0x05#8 } = .next u :=
  ⟨by decide, _, _, rfl, rfl⟩
theorem witness_push_hits_next_fetch :
    Ready (at_ 0xF1#8 [0x45#8, 0x00#8]) (.push 0x00#8) ∧
    ∃ t u, step (at_ 0xF1#8 [0x45#8, 0x00#8]) = .next t ∧
      t.pc = (at_ 0xF1#8 [0x45#8, 0x00#8]).pushAddr ∧ step t = .next u :=
  ⟨ready_at _ _ _ (by decide), _, _, rfl, by decide, rfl⟩
theorem witness_call_hits_next_fetch :
    Ready (({ at_ 0x00#8 [0x50#8, 0x00#8] with sp := 0x01#8 } : State)) (.call 0x00#8) ∧
    ∃ t u, step ({ at_ 0x00#8 [0x50#8, 0x00#8] with sp := 0x01#8 } : State) = .next t ∧
      t.pc = ({ at_ 0x00#8 [0x50#8, 0x00#8] with sp := 0x01#8 } : State).pushAddr ∧ step t = .next u :=
  ⟨⟨⟨by decide, by decide, fun _ h => nomatch h⟩, by decide, by decide⟩, _, _, rfl, by decide, rfl⟩

/-- The last byte the next instruction fetches is the one `PUSH` stored. -/
theorem witness_push_hits_operand :
    Ready ({ at_ 0x00#8 [0x45#8, 0x00#8, 0x82#8] with sp := 0x05#8 } : State) (.push 0x00#8) ∧
    ∃ t, step ({ at_ 0x00#8 [0x45#8, 0x00#8, 0x82#8] with sp := 0x05#8 } : State) = .next t ∧
      Ready t (.ldi 0x00#8 0x00#8) ∧ 2 ≤ (Instr.ldi 0x00#8 0x00#8).arity ∧
      t.pc + BitVec.ofNat 8 2 =
        ({ at_ 0x00#8 [0x45#8, 0x00#8, 0x82#8] with sp := 0x05#8 } : State).pushAddr :=
  ⟨⟨⟨by decide, by decide, fun _ h => nomatch h⟩, by decide, by decide⟩, _, rfl,
    ⟨⟨by decide, by decide, fun _ h => nomatch h⟩, by decide, by decide⟩, by decide, by decide⟩
/-- The operand of the next instruction is the return address `CALL` stored. -/
theorem witness_call_hits_operand :
    Ready ({ at_ 0x00#8 [0x50#8, 0x00#8] with sp := 0x02#8 } : State) (.call 0x00#8) ∧
    ∃ t, step ({ at_ 0x00#8 [0x50#8, 0x00#8] with sp := 0x02#8 } : State) = .next t ∧
      Ready t (.call 0x02#8) ∧ 1 ≤ (Instr.call 0x02#8).arity ∧
      t.pc + BitVec.ofNat 8 1 =
        ({ at_ 0x00#8 [0x50#8, 0x00#8] with sp := 0x02#8 } : State).pushAddr :=
  ⟨⟨⟨by decide, by decide, fun _ h => nomatch h⟩, by decide, by decide⟩, _, rfl,
    ⟨⟨by decide, by decide, fun _ h => nomatch h⟩, by decide, by decide⟩, by decide, by decide⟩

theorem witness_inv_running :
    (at_ 0xFF#8 [0x01#8]).Inv ∧ ∃ t, step (at_ 0xFF#8 [0x01#8]) = .next t :=
  ⟨⟨by decide, by decide, by decide, by decide, fun _ h => (nomatch h), fun _ h => (nomatch h),
    fun _ => by decide⟩, _, rfl⟩
theorem witness_inv_halted : State.reset.halt.Inv :=
  ⟨by decide, by decide, by decide, by decide, fun _ h => (nomatch h), fun _ h => (nomatch h),
    fun _ => rfl⟩
theorem witness_inv_faulted : State.reset.takeDecodeError.Inv :=
  ⟨by decide, by decide, by decide, by decide, fun _ h => by cases h; decide,
    fun _ h => (nomatch h), fun _ => rfl⟩
theorem witness_inv_limit : (limited 0 []).Inv ∧ (limited 0 []).status = .limitExhausted :=
  ⟨⟨by decide, by decide, by decide, by decide, fun _ h => (nomatch h), fun _ h => by cases h; decide,
    fun h => (nomatch h)⟩, by decide⟩
theorem witness_config_wf : (⟨standardOpcodes, some 10⟩ : Config).wf = true := by decide
theorem witness_equal_memories :
    Memory.wf [(3, 7#8), (255, 9#8)] = true ∧
    (Memory.write (Memory.write [] 255 9#8) 3 7#8) = [(3, 7#8), (255, 9#8)] := by decide
theorem witness_image_largest : (List.replicate 256 (0x01#8 : Byte)).length ≤ 256 := by
  rw [List.length_replicate]
theorem witness_image_too_large : 256 < (List.replicate 257 (0x01#8 : Byte)).length := by
  rw [List.length_replicate]; decide
theorem witness_short_line :
    [true, false, true] ≠ [] ∧ [true, false, true].length ≤ 8 ∧ (List.replicate 8 true).length ≤ 8 ∧
    parseLines [] = .ok [] := ⟨by decide, by decide, by decide, rfl⟩
theorem witness_bad_character : '2' ∈ ['1', '0', '1', '2'] ∧ '2' ≠ '0' ∧ '2' ≠ '1' := by decide
theorem witness_run_ends : RunEndsIn (at_ 0x0B#8 [0x01#8]) (run 1 (at_ 0x0B#8 [0x01#8])) :=
  ⟨1, rfl, by decide⟩
theorem witness_safe_run : SafeRun State.reset.halt ∧ RunEndsIn State.reset.halt State.reset.halt :=
  ⟨fun k => .inr (by cases k <;> rfl), 0, rfl, by decide⟩
theorem witness_board_running :
    (⟨at_ 0x00#8 [0x47#8, 0x04#8], true⟩ : Board).started = true ∧
    Ready (⟨at_ 0x00#8 [0x47#8, 0x04#8], true⟩ : Board).core (.prn 0x04#8) :=
  ⟨rfl, witness_ready_prn⟩
theorem witness_board_reset :
    (⟨true, false, 0#8, 0#8, true⟩ : PinsIn).rst = true ∧ (⟨true, false, 0#8, 0#8, true⟩ : PinsIn).start = true := by
  decide
theorem witness_board_loading :
    (⟨State.reset, false⟩ : Board).started = false ∧ (⟨false, true, 0xFF#8, 1#8, true⟩ : PinsIn).rst = false := by
  decide
theorem witness_board_wf : (⟨at_ 0x00#8 [0x47#8, 0x04#8], true⟩ : Board).core.cfg.wf = true := by decide
theorem witness_board_stopped :
    (⟨State.reset.halt, true⟩ : Board).started = true ∧ ¬(⟨State.reset.halt, true⟩ : Board).core.CanStep :=
  ⟨rfl, witness_no_step_halted⟩

end Sys2Proof.Tests
end

section
/-! PROOFS. The instruction register (R16): what a step does with `ir`, and that a state without a step
is its own run. -/

namespace Sys2Proof.Machine

/-! ### A state without a step (R81) -/

/-- Where R81 gives no step, `step` answers the reason. -/
theorem step_fault_of_not_canStep (s : State) (h : ¬s.CanStep) : ∃ f, step s = .fault f := by
  obtain ⟨f, hf⟩ := Option.ne_none_iff_exists'.mp (mt (stopReason_eq_none_iff s).mp h)
  exact ⟨f, by simp [step, hf]⟩

/-- A terminal state stays as it is under the run (R81, R87). -/
theorem run_of_not_canStep (s : State) (h : ¬s.CanStep) (k : Nat) : run k s = s := by
  obtain ⟨f, hf⟩ := step_fault_of_not_canStep s h
  cases k with
  | zero => rfl
  | succ k => simp [run, hf]

/-! ### Nothing of a step depends on the value `ir` held (R16) -/

@[simp] theorem State.setIr_stopReason (s : State) (v : Byte) :
    (s.setIr v).stopReason = s.stopReason := rfl
@[simp] theorem State.setIr_nextInstr (s : State) (v : Byte) :
    (s.setIr v).nextInstr = s.nextInstr := rfl
@[simp] theorem State.setIr_fetch (s : State) (v : Byte) : (s.setIr v).fetch = s.fetch := rfl
@[simp] theorem State.setIr_enter (s : State) (v : Byte) : (s.setIr v).enter = s.enter := rfl

/-- The fetch overwrites `ir` before anything reads it. -/
theorem step_setIr (s : State) (v : Byte) : step (s.setIr v) = step s := by
  simp only [step, State.setIr_stopReason, State.setIr_nextInstr, State.setIr_fetch,
    State.setIr_enter]

/-- No meaning reads or writes `ir`: it commutes with setting it. -/
theorem exec_setIr (i : Instr) (s : State) (v : Byte) :
    exec i (s.setIr v) = onNext (fun t => t.setIr v) (exec i s) := by
  cases i <;> rfl

/-! ### What a step leaves in `ir` -/

/-- After a step `ir` is the byte fetched, whether the step ran an instruction or took the decode error. -/
theorem step_ir (s t : State) (h : step s = .next t) : t.ir = s.memRead s.pc.toNat := by
  obtain ⟨-, ⟨i, -, hi⟩ | ⟨e, -, rfl⟩⟩ := step_cases s t h
  · obtain ⟨hir, -⟩ := exec_keeps i _ _ hi
    exact hir
  · rfl

/-- Settles O18: the fetch alone writes `ir`, and no step reads the value it held. -/
theorem irIsWrittenByTheFetchAlone : Obligations.IrIsWrittenByTheFetchAlone := by
  refine ⟨rfl, step_ir, exec_setIr, step_setIr, fun s hs k => ?_⟩
  rw [run_of_not_canStep s hs k]

end Sys2Proof.Machine
end

section
/-! PROOFS. Which bytes select the instruction (R66): the lookup on the opcode byte fixes the mnemonic,
and reading the operand bytes in the format of R62 never changes it. -/

namespace Sys2Proof

/-! ### The three formats (R62) -/

@[simp] theorem takeZero_eq_ok_iff (i j : Instr) (bytes r : List Byte) :
    takeZero i bytes = .ok (j, r) ↔ bytes = r ∧ j = i := by
  simp only [takeZero, Except.ok.injEq, Prod.mk.injEq, and_comm, eq_comm]

@[simp] theorem takeOne_eq_ok_iff (op : Byte) (f : Byte → Instr) (bytes r : List Byte) (i : Instr) :
    takeOne op f bytes = .ok (i, r) ↔ ∃ a, bytes = a :: r ∧ i = f a := by
  cases bytes with
  | nil => simp [takeOne]
  | cons a bytes => simp [takeOne, and_comm, eq_comm]

@[simp] theorem takeTwo_eq_ok_iff (op : Byte) (f : Byte → Byte → Instr) (bytes r : List Byte)
    (i : Instr) :
    takeTwo op f bytes = .ok (i, r) ↔ ∃ a b, bytes = a :: b :: r ∧ i = f a b := by
  match bytes with
  | [] => simp [takeTwo]
  | [_] => simp [takeTwo]
  | a :: b :: bytes => simp [takeTwo, and_comm, eq_comm]

/-! ### Reading the operand bytes of a known mnemonic -/

/-- The operand bytes never change the mnemonic: it is the one that was looked up. -/
theorem takeOperands_mnemonic (op : Byte) (n : Mnemonic) (bytes r : List Byte) (i : Instr)
    (h : takeOperands op n bytes = .ok (i, r)) : i.mnemonic = n := by
  cases n <;> simp only [takeOperands, takeZero_eq_ok_iff, takeOne_eq_ok_iff, takeTwo_eq_ok_iff] at h
  case ret | hlt =>
    obtain ⟨-, rfl⟩ := h
    rfl
  case ldi | mul | add | and | cmp =>
    obtain ⟨a, b, -, rfl⟩ := h
    rfl
  all_goals
    obtain ⟨a, -, rfl⟩ := h
    rfl

/-- Two operand bytes are enough for every mnemonic, whatever they are (R61). -/
theorem takeOperands_of_two_bytes (op : Byte) (n : Mnemonic) (a b : Byte) (rest : List Byte) :
    ∃ i r, takeOperands op n (a :: b :: rest) = .ok (i, r) := by
  cases n <;> exact ⟨_, _, rfl⟩

/-! ### The decoder -/

/-- The decoder answers an instruction exactly when the lookup on the first byte finds a mnemonic whose
operand bytes are there. -/
theorem decode_cons_eq_ok_iff (m : OpcodeMap) (op : Byte) (bytes : List Byte)
    (x : Instr × List Byte) :
    decode m (op :: bytes) = .ok x ↔
      ∃ n, m.find op = some n ∧ takeOperands op n bytes = .ok x := by
  cases hf : m.find op <;> simp [decode, hf]

/-- Settles O5: the lookup alone fixes the mnemonic, and in a well-formed map it is an exact match of
the opcode byte. -/
theorem opcodeByteAloneSelectsTheInstruction : Obligations.OpcodeByteAloneSelectsTheInstruction := by
  intro m n op a b rest hm
  constructor
  · rintro ⟨i, r, hd, rfl⟩
    obtain ⟨k, hk, ht⟩ := (decode_cons_eq_ok_iff m op _ _).mp hd
    have hmn : i.mnemonic = k := takeOperands_mnemonic op k _ r i ht
    rw [hmn, (m.find_eq_some_iff hm op k).mp hk]
  · intro hop
    have hf : m.find op = some n := (m.find_eq_some_iff hm op n).mpr hop.symm
    obtain ⟨i, r, ht⟩ := takeOperands_of_two_bytes op n a b rest
    exact ⟨i, r, (decode_cons_eq_ok_iff m op _ _).mpr ⟨n, hf, ht⟩, takeOperands_mnemonic op n _ r i ht⟩

end Sys2Proof
end

section
/-! PROOFS. The frame: how `UnchangedExcept` composes, and which parts the register write, the output
and the entry into an instruction leave unchanged. -/

namespace Sys2Proof.Machine

theorem Part.Same.trans {s t u : State} {p : Part} (h₁ : p.Same s t) (h₂ : p.Same t u) :
    p.Same s u := by
  cases p <;> exact Eq.trans h₂ h₁

/-- Two changes in a row write at most what each of them writes. -/
theorem UnchangedExcept.trans {l l' w : List Part} {s t u : State} (h₁ : UnchangedExcept l s t)
    (h₂ : UnchangedExcept l' t u) (hl : l ⊆ w) (hl' : l' ⊆ w) : UnchangedExcept w s u :=
  fun p hp => (h₁ p fun h => hp (hl h)).trans (h₂ p fun h => hp (hl' h))

@[simp] theorem State.readReg_writeReg_same (s : State) (r : RegIdx) (v : Byte) :
    (s.writeReg r v).readReg r = v :=
  (s.readReg_writeReg r r v).trans (if_pos rfl)

/-- A register write changes that register alone (R10). -/
theorem State.writeReg_unchangedExcept (s : State) (r : RegIdx) (v : Byte) :
    UnchangedExcept [.reg r] s (s.writeReg r v) := by
  intro p hp
  cases p
  case reg q =>
    have hq : q ≠ r := fun e => hp (by simp [e])
    exact (s.readReg_writeReg r q v).trans (if_neg hq)
  all_goals rfl

/-- Emitting a value changes the output stream alone (R25). -/
theorem State.emit_unchangedExcept (s : State) (v : Byte) :
    UnchangedExcept [.out] s (s.emit v) := by
  intro p hp
  cases p
  case out => exact absurd (List.mem_singleton_self _) hp
  all_goals rfl

/-- The fetch and the advance of `pc` write `ir`, the step count and `pc` (R82, R84, R86). -/
theorem State.enter_unchangedExcept (s : State) :
    UnchangedExcept [.ir, .icount, .pc] s s.enter := by
  intro p hp
  cases p
  case ir | icount | pc => exact absurd (by simp) hp
  all_goals rfl

end Sys2Proof.Machine
end

section
/-! PROOFS. The step that runs an instruction (R82 to R86): from the bytes at `pc` to the meaning of the
instruction they encode, and from that meaning's result and frame to the step's. -/

namespace Sys2Proof

/-- The operand bytes of an instruction are read back as that instruction (R62). -/
theorem takeOperands_operands (op : Byte) (i : Instr) (rest : List Byte) :
    takeOperands op i.mnemonic (i.operands ++ rest) = .ok (i, rest) := by
  cases i <;> rfl

/-- The bytes of an instruction, with none after them, decode to it (R60, R66). -/
theorem decode_encode (m : OpcodeMap) (hm : m.wf = true) (i : Instr) :
    decode m (encode m i) = .ok (i, []) := by
  have hfind : m.find (m.value i.mnemonic) = some i.mnemonic := (m.find_eq_some_iff hm _ _).mpr rfl
  have hops := takeOperands_operands (m.value i.mnemonic) i []
  rw [List.append_nil] at hops
  exact (decode_cons_eq_ok_iff m _ _ _).mpr ⟨i.mnemonic, hfind, hops⟩

end Sys2Proof

namespace Sys2Proof.Machine

/-! ### The bytes a step fetches -/

/-- The address of an instruction byte wraps modulo 256 (R44). -/
theorem State.byteAt_eq (s : State) (k : Nat) :
    s.byteAt k = s.memRead (s.pc + BitVec.ofNat 8 k).toNat := by
  have haddr : (s.pc + BitVec.ofNat 8 k).toNat = (s.pc.toNat + k) % Config.memSize := by
    simp [BitVec.toNat_add]
  rw [haddr]
  exact (Memory.read_mod s.memory _).symm

theorem State.window_eq (s : State) : s.window = [s.byteAt 0, s.byteAt 1, s.byteAt 2] := by
  rw [s.byteAt_eq 1, s.byteAt_eq 2]
  rfl

/-- A step fetches as much of the window as bits 7:6 of the opcode say (R83). -/
theorem State.fetchBytes_eq (s : State) :
    s.fetchBytes = s.window.take (arityOf (s.byteAt 0) + 1) := by
  rw [State.window_eq, List.take_succ_cons]
  rfl

/-- The fetch counts the step when a limit is configured (R86). -/
theorem State.enter_icount_eq_countAfter (s : State) : s.enter.icount = s.countAfter := by
  rw [State.enter_icount, State.countAfter]
  cases s.cfg.maxInstructions <;> rfl

/-! ### When the next instruction is known -/

section
variable {s : State} {i : Instr}

/-- The byte at `pc` is the opcode of the instruction (R60). -/
theorem Ready.byteAt_zero (h : Ready s i) : s.byteAt 0 = s.cfg.opcodes.value i.mnemonic := by
  have hbytes := h.bytes
  rw [State.window_eq, List.take_succ_cons] at hbytes
  exact (List.cons.inj hbytes).1

/-- Bits 7:6 of the opcode are the operand count of the instruction (R61, R65). -/
theorem Ready.arityOf_byteAt_zero (h : Ready s i) : arityOf (s.byteAt 0) = i.arity := by
  rw [h.byteAt_zero]
  exact ((OpcodeMap.wf_iff _).mp h.cfg_wf).2 i.mnemonic

/-- The bytes fetched decode to the instruction. -/
theorem Ready.nextInstr (h : Ready s i) : s.nextInstr = .ok i := by
  have hfetch : s.fetchBytes = encode s.cfg.opcodes i := by
    rw [State.fetchBytes_eq, h.arityOf_byteAt_zero, h.bytes]
  simp [State.nextInstr, hfetch, decode_encode s.cfg.opcodes h.cfg_wf i]

/-- The step is the meaning of the instruction, on the state after the fetch and the advance (R86). -/
theorem Ready.step_eq (h : Ready s i) : step s = exec i s.enter :=
  step_ok s i ((stopReason_eq_none_iff s).mpr h.can_step) h.nextInstr

/-- The meaning sees `pc` past the instruction's bytes (R84). -/
theorem Ready.enter_pc (h : Ready s i) : s.enter.pc = s.pc + BitVec.ofNat 8 (i.arity + 1) := by
  rw [State.enter_pc, h.arityOf_byteAt_zero]

/-! ### From the meaning to the step -/

variable {l : List Part} {post : State → Prop}

/-- The step has the result of the meaning, and writes what the meaning writes and `pc`. -/
theorem Ready.stepGives {w : List Part} (h : Ready s i) (he : ExecGives s.enter i l post)
    (hl : l ⊆ w) (hpc : Part.pc ∈ w) : StepGives s i w post := by
  obtain ⟨t, ht, hpost, hframe⟩ := he
  obtain ⟨hir, -, hicount, -⟩ := exec_keeps i _ _ ht
  refine ⟨t, h.step_eq.trans ht, hpost, hir.trans h.byteAt_zero,
    hicount.trans s.enter_icount_eq_countAfter, s.enter_unchangedExcept.trans hframe ?_ ?_⟩
  · simpa using hpc
  · exact fun p hp => .tail _ (.tail _ (hl hp))

/-- A meaning that does not write `pc` leaves it at the next instruction in order (R84). -/
theorem Ready.stepGives_next (h : Ready s i) (he : ExecGives s.enter i l post)
    (hpc : Part.pc ∉ l) :
    StepGives s i (l ++ [.pc]) fun t => post t ∧ t.pc = s.pc + BitVec.ofNat 8 (i.arity + 1) := by
  obtain ⟨t, ht, hpost, hframe⟩ := he
  have hnext : t.pc = s.pc + BitVec.ofNat 8 (i.arity + 1) :=
    Eq.trans (hframe .pc hpc) h.enter_pc
  exact h.stepGives ⟨t, ht, ⟨hpost, hnext⟩, hframe⟩ (List.subset_append_left _ _) (by simp)

end

end Sys2Proof.Machine
end

section
/-! PROOFS. Load-immediate and print (R100, R102). -/

namespace Sys2Proof.Machine

/-- R100: the register written reads back the literal. -/
theorem execGives_ldi (s : State) (a imm : Byte) :
    ExecGives s (.ldi a imm) [.reg (ridx a)] fun t => t.readReg (ridx a) = imm :=
  ⟨_, exec_ldi s a imm, s.readReg_writeReg_same _ _, s.writeReg_unchangedExcept _ _⟩

/-- R102: the value of the register is appended to the output. -/
theorem execGives_prn (s : State) (a : Byte) :
    ExecGives s (.prn a) [.out] fun t => t.out = s.out ++ [s.readReg (ridx a)] :=
  ⟨_, exec_prn s a, s.emit_out _, s.emit_unchangedExcept _⟩

/-- Settles O22: `LDI` writes its register and does not touch `pc`, so the step ends three bytes on. -/
theorem ldiWritesTheLiteral : Obligations.LdiWritesTheLiteral :=
  fun s a imm => ⟨execGives_ldi s a imm,
    fun h => h.stepGives_next (l := [.reg (ridx a)]) (execGives_ldi s.enter a imm) (by simp)⟩

/-- Settles O23: `PRN` reads the same register and output before and after the fetch, and does not touch
`pc`, so the step ends two bytes on. -/
theorem prnEmitsTheRegister : Obligations.PrnEmitsTheRegister :=
  fun s a => ⟨execGives_prn s a,
    fun h => h.stepGives_next (l := [.out]) (execGives_prn s.enter a) (by simp)⟩

end Sys2Proof.Machine
end

section
/-! PROOFS. The ALU (R110 to R119): five instructions write the register of operand A, `CMP` writes `fl`,
and none of them touches `pc`. -/

namespace Sys2Proof.Machine

/-! ### The two writes of the ALU and their frames -/

/-- Setting the flags register changes it alone (R17). -/
theorem State.setFl_unchangedExcept (s : State) (v : Byte) :
    UnchangedExcept [.fl] s (s.setFl v) := by
  intro p hp
  cases p
  case fl => exact absurd (List.mem_singleton_self _) hp
  all_goals rfl

/-- Writing back the value a register holds changes no register (R10). -/
theorem State.readReg_writeReg_readReg (s : State) (r q : RegIdx) :
    (s.writeReg r (s.readReg r)).readReg q = s.readReg q := by
  rw [State.readReg_writeReg]
  split
  case isTrue hq => rw [hq]
  case isFalse => rfl

/-- A meaning that is one register write: the register has what holds of the value written (R110). -/
theorem execGives_writeReg {s : State} {i : Instr} {r : RegIdx} {v : Byte} {P : Byte → Prop}
    (h : exec i s = .next (s.writeReg r v)) (hv : P v) :
    ExecGives s i [.reg r] fun t => P (t.readReg r) :=
  ⟨_, h, (congrArg P (s.readReg_writeReg_same r v)).mpr hv, s.writeReg_unchangedExcept r v⟩

/-! ### The values computed (R111) -/

/-- The decrement as an integer: a remainder is not negative, so 0 goes to 255 (R118). -/
theorem toNat_sub_one_eq_emod (x : Byte) : ((x - 1#8).toNat : Int) = (x.toNat - 1 : Int) % 256 := by
  have hx : x.toNat < 256 := x.toNat_lt
  have hsub : (x - 1#8).toNat = (255 + x.toNat) % 256 := BitVec.toNat_sub x 1#8
  rw [hsub]
  omega

/-- `CMP`'s three cases as comparisons of unsigned numbers (R116). -/
theorem cmpFlags_eq_toNat (x y : Byte) :
    cmpFlags x y =
      if x.toNat = y.toNat then 0x01#8 else if x.toNat < y.toNat then 0x02#8 else 0x04#8 := by
  simp only [cmpFlags_eq, BitVec.toNat_inj]

/-! ### The meanings -/

section
variable (s : State) (a b : Byte)

/-- R112. -/
theorem execGives_mul : ExecGives s (.mul a b) [.reg (ridx a)] fun t =>
    (t.readReg (ridx a)).toNat =
      ((s.readReg (ridx a)).toNat * (s.readReg (ridx b)).toNat) % 256 :=
  execGives_writeReg (P := fun v => v.toNat = _) (exec_mul s a b) (BitVec.toNat_mul _ _)

/-- R113. -/
theorem execGives_add : ExecGives s (.add a b) [.reg (ridx a)] fun t =>
    (t.readReg (ridx a)).toNat =
      ((s.readReg (ridx a)).toNat + (s.readReg (ridx b)).toNat) % 256 :=
  execGives_writeReg (P := fun v => v.toNat = _) (exec_add s a b) (BitVec.toNat_add _ _)

/-- R114. -/
theorem execGives_and : ExecGives s (.and a b) [.reg (ridx a)] fun t => ∀ k < 8,
    (t.readReg (ridx a)).getLsbD k =
      ((s.readReg (ridx a)).getLsbD k && (s.readReg (ridx b)).getLsbD k) :=
  execGives_writeReg
    (P := fun v => ∀ k < 8, v.getLsbD k =
      ((s.readReg (ridx a)).getLsbD k && (s.readReg (ridx b)).getLsbD k))
    (exec_and s a b) fun _ _ => BitVec.getLsbD_and

/-- R116: the values are compared by the model's `cmpFlags`. -/
theorem execGives_cmp : ExecGives s (.cmp a b) [.fl] fun t =>
    t.fl = if (s.readReg (ridx a)).toNat = (s.readReg (ridx b)).toNat then 0x01#8
      else if (s.readReg (ridx a)).toNat < (s.readReg (ridx b)).toNat then 0x02#8 else 0x04#8 :=
  ⟨_, exec_cmp s a b, (s.setFl_fl _).trans (cmpFlags_eq_toNat _ _), s.setFl_unchangedExcept _⟩

/-- R117. -/
theorem execGives_inc : ExecGives s (.inc a) [.reg (ridx a)] fun t =>
    (t.readReg (ridx a)).toNat = ((s.readReg (ridx a)).toNat + 1) % 256 :=
  execGives_writeReg (P := fun v => v.toNat = _) (exec_inc s a) (BitVec.toNat_add _ _)

/-- R118. -/
theorem execGives_dec : ExecGives s (.dec a) [.reg (ridx a)] fun t =>
    ((t.readReg (ridx a)).toNat : Int) = ((s.readReg (ridx a)).toNat - 1 : Int) % 256 :=
  execGives_writeReg (P := fun v => (v.toNat : Int) = _) (exec_dec s a) (toNat_sub_one_eq_emod _)

end

/-! ### The obligations

In each, the registers read are those before the fetch, and the step ends at the next instruction. -/

/-- Settles O24: the word product is the product modulo 256. -/
theorem mulWritesTheProductModulo256 : Obligations.MulWritesTheProductModulo256 :=
  fun s a b => ⟨execGives_mul s a b,
    fun h => h.stepGives_next (l := [.reg (ridx a)]) (execGives_mul s.enter a b) (by simp)⟩

/-- Settles O25: the word sum is the sum modulo 256. -/
theorem addWritesTheSumModulo256 : Obligations.AddWritesTheSumModulo256 :=
  fun s a b => ⟨execGives_add s a b,
    fun h => h.stepGives_next (l := [.reg (ridx a)]) (execGives_add s.enter a b) (by simp)⟩

/-- Settles O26: the word conjunction, bit by bit. -/
theorem andWritesTheBitwiseConjunction : Obligations.AndWritesTheBitwiseConjunction :=
  fun s a b => ⟨execGives_and s a b,
    fun h => h.stepGives_next (l := [.reg (ridx a)]) (execGives_and s.enter a b) (by simp)⟩

/-- Settles O27: `CMP` writes the whole of `fl` and no register. -/
theorem cmpSetsExactlyOneFlag : Obligations.CmpSetsExactlyOneFlag :=
  fun s a b => ⟨execGives_cmp s a b,
    fun h => h.stepGives_next (l := [.fl]) (execGives_cmp s.enter a b) (by simp)⟩

/-- Settles O28: the word successor is plus one modulo 256. -/
theorem incAddsOneModulo256 : Obligations.IncAddsOneModulo256 :=
  fun s a => ⟨execGives_inc s a,
    fun h => h.stepGives_next (l := [.reg (ridx a)]) (execGives_inc s.enter a) (by simp)⟩

/-- Settles O29: the word predecessor is minus one modulo 256, over the integers. -/
theorem decSubtractsOneModulo256 : Obligations.DecSubtractsOneModulo256 :=
  fun s a => ⟨execGives_dec s a,
    fun h => h.stepGives_next (l := [.reg (ridx a)]) (execGives_dec s.enter a) (by simp)⟩

/-- Settles O38: each result above, at two operands that are one register. -/
theorem sameRegisterAsBothOperands : Obligations.SameRegisterAsBothOperands := by
  intro s a b hab
  obtain ⟨tAdd, hAdd, hsum, -⟩ := execGives_add s a b
  obtain ⟨tMul, hMul, hprod, -⟩ := execGives_mul s a b
  obtain ⟨tCmp, hCmp, hfl, -⟩ := execGives_cmp s a b
  refine ⟨⟨tAdd, hAdd, ?_⟩, ⟨tMul, hMul, ?_⟩, ⟨_, exec_and s a b, fun r => ?_⟩, tCmp, hCmp, ?_⟩
  · rw [hsum, ← hab, two_mul]
  · rw [hprod, ← hab, sq]
  · rw [← hab, BitVec.and_self, State.readReg_writeReg_readReg]
  · rw [hfl, ← hab, if_pos rfl]

end Sys2Proof.Machine
end

section
/-! PROOFS. The stack instructions (R130 to R132): `PUSH` and `POP` one at a time, then lists of them
under `execAll`. -/

namespace Sys2Proof.Machine

/-! ### The two stack operations and their frames (R21) -/

/-- Moving `sp` changes it alone (R21). -/
theorem State.setSp_unchangedExcept (s : State) (v : Byte) :
    UnchangedExcept [.sp] s (s.setSp v) := by
  intro p hp
  cases p
  case sp => exact absurd (List.mem_singleton_self _) hp
  all_goals rfl

/-- A push writes `sp` and the one cell below the old `sp` (R21). -/
theorem State.push_unchangedExcept (s : State) (v : Byte) :
    UnchangedExcept [.sp, .cell s.pushAddr] s (s.push v) := by
  intro p hp
  cases p
  case cell a =>
    have ha : a ≠ s.sp - 1#8 := fun e => hp (by simp [e, State.pushAddr])
    exact (s.memRead_push v a).trans (if_neg ha)
  case sp => exact absurd (List.mem_cons_self ..) hp
  all_goals rfl

/-- The byte pushed is the one at the new `sp` (R21). -/
theorem State.memRead_push_top (s : State) (v : Byte) :
    (s.push v).memRead (s.push v).sp.toNat = v :=
  (s.memRead_push v _).trans (if_pos rfl)

/-! ### The meanings -/

/-- R130. -/
theorem execGives_push (s : State) (a : Byte) :
    ExecGives s (.push a) [.sp, .cell s.pushAddr] fun t =>
      t.sp = s.sp - 1#8 ∧ t.memRead t.sp.toNat = s.readReg (ridx a) :=
  ⟨_, exec_push s a, ⟨s.push_sp _, s.memRead_push_top _⟩, s.push_unchangedExcept _⟩

/-- R131. -/
theorem execGives_pop (s : State) (a : Byte) :
    ExecGives s (.pop a) [.reg (ridx a), .sp] fun t =>
      t.readReg (ridx a) = s.memRead s.sp.toNat ∧ t.sp = s.sp + 1#8 :=
  ⟨_, exec_pop s a, ⟨s.readReg_writeReg_same _ _, rfl⟩,
    (s.writeReg_unchangedExcept _ _).trans (State.setSp_unchangedExcept _ _) (by simp) (by simp)⟩

/-- What a meaning gives is had by the state it answers. -/
theorem ExecGives.of_eq_next {s t : State} {i : Instr} {w : List Part} {post : State → Prop}
    (hg : ExecGives s i w post) (h : exec i s = .next t) : post t ∧ UnchangedExcept w s t := by
  obtain ⟨t', ht', hpost, hframe⟩ := hg
  obtain rfl : t' = t := Host.Outcome.next.inj (ht'.symm.trans h)
  exact ⟨hpost, hframe⟩

/-- The result of a step may be weakened. -/
theorem StepGives.imp {s : State} {i : Instr} {w : List Part} {post post' : State → Prop}
    (hg : StepGives s i w post) (himp : ∀ t, post t → post' t) : StepGives s i w post' := by
  obtain ⟨t, ht, hpost, hrest⟩ := hg
  exact ⟨t, ht, himp t hpost, hrest⟩

/-- Settles O30: the push sees the same `sp` and register before and after the fetch, and does not touch
`pc`, so the step ends two bytes on. -/
theorem pushStoresBelowTheStack : Obligations.PushStoresBelowTheStack :=
  fun s a => ⟨execGives_push s a, fun h =>
    (h.stepGives_next (l := [.sp, .cell s.pushAddr]) (execGives_push s.enter a) (by simp)).imp
      fun _ => and_assoc.mp⟩

/-- Settles O31: the pop sees the same `sp` and memory before and after the fetch, and does not touch
`pc`, so the step ends two bytes on. -/
theorem popLoadsTheTopOfStack : Obligations.PopLoadsTheTopOfStack :=
  fun s a => ⟨execGives_pop s a, fun h =>
    (h.stepGives_next (l := [.reg (ridx a), .sp]) (execGives_pop s.enter a) (by simp)).imp
      fun _ => and_assoc.mp⟩

/-! ### Lists of instructions -/

section
variable {s u : State} {is js : List Instr}

theorem execAll_cons_eq_next_iff {i : Instr} :
    execAll (i :: is) s = .next u ↔ ∃ t, exec i s = .next t ∧ execAll is t = .next u := by
  obtain ⟨t, ht⟩ := exec_next i s
  simp [execAll, ht]

theorem execAll_append_eq_next_iff :
    execAll (is ++ js) s = .next u ↔ ∃ t, execAll is s = .next t ∧ execAll js t = .next u := by
  induction is generalizing s with
  | nil => simp [execAll]
  | cons i is ih =>
    simp only [List.cons_append, execAll_cons_eq_next_iff, ih]
    exact ⟨fun ⟨t, ht, v, hv, hu⟩ => ⟨v, ⟨t, ht, hv⟩, hu⟩,
      fun ⟨v, ⟨t, ht, hv⟩, hu⟩ => ⟨t, ht, v, hv, hu⟩⟩

/-- Every list of meanings completes. -/
theorem execAll_next (is : List Instr) (s : State) : ∃ t, execAll is s = .next t := by
  induction is generalizing s with
  | nil => exact ⟨s, rfl⟩
  | cons i is ih =>
    obtain ⟨t, ht⟩ := exec_next i s
    obtain ⟨u, hu⟩ := ih t
    exact ⟨u, execAll_cons_eq_next_iff.mpr ⟨t, ht, hu⟩⟩

/-- A part that no instruction of the list changes is unchanged by the list. -/
theorem execAll_same {p : Part} (hp : ∀ i ∈ is, ∀ s t, exec i s = .next t → p.Same s t)
    (h : execAll is s = .next u) : p.Same s u := by
  induction is generalizing s with
  | nil =>
    obtain rfl : s = u := Host.Outcome.next.inj h
    cases p <;> rfl
  | cons i is ih =>
    obtain ⟨t, ht, hu⟩ := execAll_cons_eq_next_iff.mp h
    exact (hp i (by simp) s t ht).trans (ih (fun j hj => hp j (by simp [hj])) hu)

/-- One kind of instruction, run for each operand byte of a list, leaves a part alone when the frame of
each run does. -/
theorem execAll_map_same {f : Byte → Instr} {as : List Byte} {p : Part}
    {w : State → Byte → List Part} {post : State → Byte → State → Prop}
    (hg : ∀ s a, ExecGives s (f a) (w s a) (post s a)) (hp : ∀ s, ∀ a ∈ as, p ∉ w s a)
    (h : execAll (as.map f) s = .next u) : p.Same s u := by
  refine execAll_same (fun i hi s t ht => ?_) h
  obtain ⟨a, ha, rfl⟩ := List.mem_map.mp hi
  obtain ⟨-, hframe⟩ := (hg s a).of_eq_next ht
  exact hframe p (hp s a ha)

/-! ### Pushes and pops in any order -/

/-- Each push lowers `sp` by one and each pop raises it by one, modulo 256 (R130, R131). -/
theorem execAll_sp (his : ∀ i ∈ is, i.mnemonic = .push ∨ i.mnemonic = .pop)
    (h : execAll is s = .next u) :
    u.sp + BitVec.ofNat 8 (is.filter fun i => i.mnemonic == .push).length =
      s.sp + BitVec.ofNat 8 (is.filter fun i => i.mnemonic == .pop).length := by
  induction is generalizing s with
  | nil =>
    obtain rfl : s = u := Host.Outcome.next.inj h
    rfl
  | cons i is ih =>
    obtain ⟨t, ht, hu⟩ := execAll_cons_eq_next_iff.mp h
    have htail := ih (fun j hj => his j (by simp [hj])) hu
    have hi := his i (by simp)
    cases i
    case push a =>
      obtain ⟨⟨hsp, -⟩, -⟩ := (execGives_push s a).of_eq_next ht
      rw [List.filter_cons_of_pos rfl, List.filter_cons_of_neg Bool.false_ne_true,
        List.length_cons, BitVec.ofNat_add]
      linear_combination htail + hsp
    case pop a =>
      obtain ⟨⟨-, hsp⟩, -⟩ := (execGives_pop s a).of_eq_next ht
      rw [List.filter_cons_of_neg Bool.false_ne_true, List.filter_cons_of_pos rfl,
        List.length_cons, BitVec.ofNat_add]
      linear_combination htail + hsp
    all_goals simp [Instr.mnemonic] at hi

/-- As many pushes as pops leave `sp` as it was (R132). -/
theorem execAll_sp_of_balanced (his : ∀ i ∈ is, i.mnemonic = .push ∨ i.mnemonic = .pop)
    (hlen : (is.filter fun i => i.mnemonic == .push).length =
      (is.filter fun i => i.mnemonic == .pop).length)
    (h : execAll is s = .next u) : u.sp = s.sp := by
  have hsp := execAll_sp his h
  rw [hlen] at hsp
  exact add_right_cancel hsp

end

/-! ### Pushes only, then pops only -/

section
variable {s t u : State} {as pre post : List Byte} {a : Byte}

theorem filter_map_push (n : Mnemonic) :
    (as.map Instr.push).filter (fun i => i.mnemonic == n) =
      if n = .push then as.map Instr.push else [] := by
  cases n <;> simp [List.filter_map, Function.comp_def, Instr.mnemonic]

theorem filter_map_pop (n : Mnemonic) :
    (as.map Instr.pop).filter (fun i => i.mnemonic == n) =
      if n = .pop then as.map Instr.pop else [] := by
  cases n <;> simp [List.filter_map, Function.comp_def, Instr.mnemonic]

theorem execAll_map_push_sp (h : execAll (as.map .push) s = .next t) :
    t.sp + BitVec.ofNat 8 as.length = s.sp := by
  have hsp := execAll_sp (by simp [Instr.mnemonic]) h
  simpa [filter_map_push] using hsp

theorem execAll_map_pop_sp (h : execAll (as.map .pop) s = .next t) :
    t.sp = s.sp + BitVec.ofNat 8 as.length := by
  have hsp := execAll_sp (by simp [Instr.mnemonic]) h
  simpa [filter_map_pop] using hsp

/-- A push writes no register (R130). -/
theorem execAll_map_push_readReg (h : execAll (as.map .push) s = .next t) (r : RegIdx) :
    t.readReg r = s.readReg r :=
  execAll_map_same (p := .reg r) execGives_push (by simp) h

/-- A pop writes no memory (R131). -/
theorem execAll_map_pop_memRead (h : execAll (as.map .pop) s = .next t) (c : Byte) :
    t.memRead c.toNat = s.memRead c.toNat :=
  execAll_map_same (p := .cell c) execGives_pop (by simp) h

/-- Pops leave alone the registers they do not name (R131). -/
theorem execAll_map_pop_readReg {r : RegIdx} (hr : ∀ b ∈ as, ridx b ≠ r)
    (h : execAll (as.map .pop) s = .next t) : t.readReg r = s.readReg r :=
  execAll_map_same (p := .reg r) execGives_pop (by simpa [eq_comm] using fun _ => hr) h

/-- Going up fewer than 255 cells does not come round to the cell below (R44). -/
theorem add_ofNat_ne_sub_one (x : BitVec 8) {d : Nat} (hd : d + 1 < 256) :
    x + BitVec.ofNat 8 d ≠ x - 1#8 := by
  bv_omega

/-- A cell `d` above `sp` keeps its byte while the pushes, going down, do not come round to it. -/
theorem execAll_map_push_memRead {d : Nat} (hd : d + as.length < 256)
    (h : execAll (as.map .push) s = .next t) :
    t.memRead (s.sp + BitVec.ofNat 8 d).toNat = s.memRead (s.sp + BitVec.ofNat 8 d).toNat := by
  induction as generalizing s d with
  | nil =>
    obtain rfl : s = t := Host.Outcome.next.inj h
    rfl
  | cons a as ih =>
    obtain ⟨v, hv, ht⟩ := execAll_cons_eq_next_iff.mp h
    obtain ⟨⟨hsp, -⟩, hframe⟩ := (execGives_push s a).of_eq_next hv
    rw [List.length_cons] at hd
    have haddr : s.sp + BitVec.ofNat 8 d = v.sp + BitVec.ofNat 8 (d + 1) := by
      rw [BitVec.ofNat_add]
      linear_combination -hsp
    have hne : s.sp + BitVec.ofNat 8 d ≠ s.pushAddr := add_ofNat_ne_sub_one s.sp (by omega)
    have hcell := hframe (.cell (s.sp + BitVec.ofNat 8 d)) (by simpa using hne)
    rw [haddr, ih (by omega) ht, ← haddr]
    exact hcell

/-- After a push and up to 255 more, the byte pushed stands as far above `sp` as pushes followed it. -/
theorem execAll_push_memRead (hpost : post.length < 256)
    (h : execAll ((pre ++ a :: post).map .push) s = .next t) :
    t.memRead (t.sp + BitVec.ofNat 8 post.length).toNat = s.readReg (ridx a) := by
  rw [List.map_append, List.map_cons] at h
  obtain ⟨v, hv, h⟩ := execAll_append_eq_next_iff.mp h
  obtain ⟨w, hw, ht⟩ := execAll_cons_eq_next_iff.mp h
  obtain ⟨⟨-, hcell⟩, -⟩ := (execGives_push v a).of_eq_next hw
  have hkept := execAll_map_push_memRead (d := 0) (by simpa using hpost) ht
  rw [BitVec.add_zero] at hkept
  rw [execAll_map_push_sp ht, hkept, hcell, execAll_map_push_readReg hv]

/-- A pop gets the byte as far above the first `sp` as pops went before it, and the register keeps it
while no later pop names that register. -/
theorem execAll_pop_readReg (hlast : ∀ b ∈ post, ridx b ≠ ridx a)
    (h : execAll ((pre ++ a :: post).map .pop) s = .next t) :
    t.readReg (ridx a) = s.memRead (s.sp + BitVec.ofNat 8 pre.length).toNat := by
  rw [List.map_append, List.map_cons] at h
  obtain ⟨v, hv, h⟩ := execAll_append_eq_next_iff.mp h
  obtain ⟨w, hw, ht⟩ := execAll_cons_eq_next_iff.mp h
  obtain ⟨⟨hload, -⟩, -⟩ := (execGives_pop v a).of_eq_next hw
  rw [execAll_map_pop_readReg hlast ht, hload, execAll_map_pop_memRead hv, execAll_map_pop_sp hv]

end

/-! ### Positions in a list -/

/-- A list split at one of its positions. -/
theorem take_append_getD_cons_drop {l : List Byte} {k : Nat} (hk : k < l.length) :
    l.take k ++ l.getD k 0 :: l.drop (k + 1) = l := by
  rw [List.getD_eq_getElem _ _ hk, List.getElem_cons_drop, List.take_append_drop]

/-- An element past position `k` stands at a later position. -/
theorem exists_getD_eq_of_mem_drop {l : List Byte} {k : Nat} {b : Byte} (hb : b ∈ l.drop (k + 1)) :
    ∃ j < l.length, k < j ∧ l.getD j 0 = b := by
  obtain ⟨i, hi, rfl⟩ := List.mem_drop_iff_getElem.mp hb
  exact ⟨k + 1 + i, by omega, by omega, List.getD_eq_getElem _ _ _⟩

/-! ### Pops undo pushes -/

/-- A pop where a push left `sp` and the cell undoes the push (R132). -/
theorem pop_after_push {s t t' : State} {a : Byte} (b : Byte) (h : exec (.push a) s = .next t)
    (hsp : t'.sp = t.sp) (hcell : t'.memRead t'.sp.toNat = t.memRead t.sp.toNat) :
    ∃ u, exec (.pop b) t' = .next u ∧ u.sp = s.sp ∧ u.readReg (ridx b) = s.readReg (ridx a) := by
  obtain ⟨⟨hdown, hstored⟩, -⟩ := (execGives_push s a).of_eq_next h
  obtain ⟨u, hu, ⟨hload, hup⟩, -⟩ := execGives_pop t' b
  refine ⟨u, hu, ?_, hload.trans (hcell.trans hstored)⟩
  rw [hup, hsp, hdown, BitVec.sub_add_cancel]

/-- After up to 256 pushes, the `k`-th of as many pops gets the value of the `k`-th last push, and its
register keeps it while no later pop names that register (R132). -/
theorem pops_reverse_pushes {s t u : State} {as bs : List Byte} (hlen : as.length = bs.length)
    (hmax : as.length ≤ 256) (ht : execAll (as.map .push) s = .next t)
    (hu : execAll (bs.map .pop) t = .next u) {k : Nat} (hk : k < bs.length)
    (hlast : ∀ j < bs.length, k < j → ridx (bs.getD j 0) ≠ ridx (bs.getD k 0)) :
    u.readReg (ridx (bs.getD k 0)) = s.readReg (ridx (as.getD (as.length - 1 - k) 0)) := by
  have hm : as.length - 1 - k < as.length := by omega
  have hdepth : (bs.take k).length = (as.drop (as.length - 1 - k + 1)).length := by
    rw [List.length_take, List.length_drop]
    omega
  have hlater : ∀ b ∈ bs.drop (k + 1), ridx b ≠ ridx (bs.getD k 0) := by
    intro b hb
    obtain ⟨j, hj, hkj, rfl⟩ := exists_getD_eq_of_mem_drop hb
    exact hlast j hj hkj
  rw [← take_append_getD_cons_drop hk] at hu
  rw [← take_append_getD_cons_drop hm] at ht
  rw [execAll_pop_readReg hlater hu, hdepth, execAll_push_memRead _ ht]
  rw [List.length_drop]
  omega

/-- Settles O41: `sp` counts pushes against pops; a byte pushed stands above `sp` by the number of pushes
after it, and a pop reads above `sp` by the number of pops before it. -/
theorem balancedPushesAndPopsReverse : Obligations.BalancedPushesAndPopsReverse := by
  refine ⟨fun _ _ _ _ b => pop_after_push b, fun s is his hlen => ?_, fun s as bs hlen hmax => ?_⟩
  · obtain ⟨t, ht⟩ := execAll_next is s
    exact ⟨t, ht, execAll_sp_of_balanced his hlen ht⟩
  · obtain ⟨t, ht⟩ := execAll_next (as.map .push) s
    obtain ⟨u, hu⟩ := execAll_next (bs.map .pop) t
    refine ⟨t, u, ht, hu, ?_, fun k hk hlast => pops_reverse_pushes hlen hmax ht hu hk hlast⟩
    rw [execAll_map_pop_sp hu, ← hlen, execAll_map_push_sp ht]

end Sys2Proof.Machine
end

section
/-! PROOFS. Control transfer (R140 to R151): the five instructions one at a time, the conditional jumps
after a `CMP` (R149), and calls with their returns (R143). -/

namespace Sys2Proof.Machine

/-! ### The write of `pc` and its frame -/

/-- Setting `pc` changes it alone (R14). -/
theorem State.setPc_unchangedExcept (s : State) (v : Byte) :
    UnchangedExcept [.pc] s (s.setPc v) := by
  intro p hp
  cases p
  case pc => exact absurd (List.mem_singleton_self _) hp
  all_goals rfl

/-- A meaning that is one write of `pc` (R144, R151). -/
theorem execGives_setPc {s : State} {i : Instr} {v : Byte} (h : exec i s = .next (s.setPc v)) :
    ExecGives s i [.pc] fun t => t.pc = v :=
  ⟨_, h, rfl, s.setPc_unchangedExcept v⟩

/-! ### The meanings -/

section
variable (s : State) (a : Byte)

/-- R140. -/
theorem execGives_call : ExecGives s (.call a) [.sp, .cell s.pushAddr, .pc] fun t =>
    t.sp = s.sp - 1#8 ∧ t.memRead t.sp.toNat = s.pc ∧ t.pc = s.readReg (ridx a) :=
  ⟨_, exec_call s a, ⟨s.push_sp s.pc, s.memRead_push_top s.pc, rfl⟩,
    (s.push_unchangedExcept s.pc).trans (State.setPc_unchangedExcept _ _) (by simp) (by simp)⟩

/-- R142. -/
theorem execGives_ret : ExecGives s .ret [.pc, .sp] fun t =>
    t.pc = s.memRead s.sp.toNat ∧ t.sp = s.sp + 1#8 :=
  ⟨_, exec_ret s, ⟨rfl, rfl⟩,
    (s.setPc_unchangedExcept _).trans (State.setSp_unchangedExcept _ _) (by simp) (by simp)⟩

/-- R144. -/
theorem execGives_jmp : ExecGives s (.jmp a) [.pc] fun t => t.pc = s.readReg (ridx a) :=
  execGives_setPc (exec_jmp s a)

/-- R146. -/
theorem execGives_jeq : ExecGives s (.jeq a) [.pc] fun t =>
    t.pc = if s.fl.getLsbD 0 = true then s.readReg (ridx a) else s.pc :=
  execGives_setPc (exec_jeq s a)

/-- R148. -/
theorem execGives_jne : ExecGives s (.jne a) [.pc] fun t =>
    t.pc = if s.fl.getLsbD 0 = false then s.readReg (ridx a) else s.pc := by
  simpa only [State.flagE_eq, Bool.not_eq_true'] using execGives_setPc (exec_jne s a)

end

/-! ### The instructions, alone and as steps -/

/-- Settles O32: the `pc` pushed is the one after the advance, two bytes past the `CALL`. -/
theorem callPushesTheReturnAddress : Obligations.CallPushesTheReturnAddress :=
  fun s a => ⟨execGives_call s a,
    fun h => h.stepGives (h.enter_pc ▸ execGives_call s.enter a) (List.Subset.refl _) (by simp)⟩

/-- Settles O33: the `RET` reads the same `sp` and memory before and after the fetch. -/
theorem retJumpsToTheTopOfStack : Obligations.RetJumpsToTheTopOfStack :=
  fun s => ⟨execGives_ret s,
    fun h => h.stepGives (execGives_ret s.enter) (List.Subset.refl _) (by simp)⟩

/-- Settles O34: the `JMP` reads the same register before and after the fetch. -/
theorem jmpGoesToTheRegister : Obligations.JmpGoesToTheRegister :=
  fun s a => ⟨execGives_jmp s a,
    fun h => h.stepGives (execGives_jmp s.enter a) (List.Subset.refl _) (by simp)⟩

/-- Settles O35: the `pc` a jump not taken leaves is the one after the advance, two bytes on. -/
theorem jeqJumpsWhenEIsSet : Obligations.JeqJumpsWhenEIsSet :=
  fun s a => ⟨execGives_jeq s a,
    fun h => h.stepGives (h.enter_pc ▸ execGives_jeq s.enter a) (List.Subset.refl _) (by simp)⟩

/-- Settles O36: as for `JEQ`, with the condition negated. -/
theorem jneJumpsWhenEIsClear : Obligations.JneJumpsWhenEIsClear :=
  fun s a => ⟨execGives_jne s a,
    fun h => h.stepGives (h.enter_pc ▸ execGives_jne s.enter a) (List.Subset.refl _) (by simp)⟩

/-! ### Conditional jumps after a compare (R149) -/

/-- `CMP` sets E exactly for equal values (R116). -/
theorem cmpFlags_getLsbD_zero (x y : Byte) : (cmpFlags x y).getLsbD 0 = decide (x = y) := by
  rw [cmpFlags_eq]
  split
  case isTrue h => simp [h]
  case isFalse h => split <;> simp [h]

/-- The `pc` after any instruction is the same for two values of `fl` that agree in E (R19). -/
theorem exec_setFl_pc (i : Instr) {s t u : State} {v : Byte} (hE : v.getLsbD 0 = s.fl.getLsbD 0)
    (ht : exec i s = .next t) (hu : exec i (s.setFl v) = .next u) : u.pc = t.pc := by
  have hflagE : (s.setFl v).flagE = s.flagE := hE
  cases i
  case jeq | jne =>
    simp only [exec_jeq, exec_jne, hflagE] at hu
    cases hu
    cases ht
    rfl
  all_goals
    cases hu
    cases ht
    rfl

/-- Settles O40: `CMP` leaves E as the equality of the values, and E alone decides between the register
and the next instruction, for `JEQ` and `JNE` in opposite ways. -/
theorem conditionalJumpsFollowTheCompare : Obligations.ConditionalJumpsFollowTheCompare := by
  refine ⟨fun s a b c => ?_, fun s c => ?_, fun i s t u v => exec_setFl_pc i⟩
  · refine ⟨_, exec_cmp s a b, ?_⟩
    obtain ⟨t, ht, htpc, -⟩ := execGives_jeq (s.setFl (cmpFlags _ _)) c
    obtain ⟨u, hu, hupc, -⟩ := execGives_jne (s.setFl (cmpFlags _ _)) c
    rw [State.setFl_fl, cmpFlags_getLsbD_zero] at htpc hupc
    simp only [decide_eq_true_eq, decide_eq_false_iff_not, ite_not] at htpc hupc
    exact ⟨⟨t, ht, htpc⟩, u, hu, hupc⟩
  · obtain ⟨t, ht, htpc, -⟩ := execGives_jeq s c
    obtain ⟨u, hu, hupc, -⟩ := execGives_jne s c
    refine ⟨t, u, ht, hu, ?_⟩
    cases hE : s.fl.getLsbD 0 <;> rw [hE] at htpc hupc
    · exact .inr ⟨htpc, hupc⟩
    · exact .inl ⟨htpc, hupc⟩

/-! ### Lists of calls and lists of returns -/

section
variable {s t u : State} {is : List Instr} {as : List Byte}

/-- Instructions that each move `sp` by the same amount move it by as many times that amount. -/
theorem execAll_sp_of_each {c : Byte}
    (his : ∀ i ∈ is, ∀ s t, exec i s = .next t → t.sp = s.sp + c)
    (h : execAll is s = .next u) : u.sp = s.sp + BitVec.ofNat 8 is.length * c := by
  induction is generalizing s with
  | nil =>
    obtain rfl : s = u := Host.Outcome.next.inj h
    simp
  | cons i is ih =>
    obtain ⟨t, ht, hu⟩ := execAll_cons_eq_next_iff.mp h
    have hfirst : t.sp = s.sp + c := his i (by simp) s t ht
    have hrest := ih (fun j hj => his j (by simp [hj])) hu
    rw [List.length_cons, BitVec.ofNat_add, add_mul, BitVec.one_mul]
    linear_combination hrest + hfirst

theorem execAll_map_call_sp (h : execAll (as.map .call) s = .next t) :
    t.sp = s.sp - BitVec.ofNat 8 as.length := by
  have hsp : t.sp = s.sp + BitVec.ofNat 8 (as.map Instr.call).length * -1#8 := by
    refine execAll_sp_of_each (fun i hi s t ht => ?_) h
    obtain ⟨a, -, rfl⟩ := List.mem_map.mp hi
    obtain ⟨⟨hdown, -⟩, -⟩ := (execGives_call s a).of_eq_next ht
    exact hdown.trans (BitVec.sub_eq_add_neg _ _)
  rw [hsp, List.length_map, BitVec.mul_neg, BitVec.mul_one, BitVec.sub_eq_add_neg]

theorem execAll_replicate_ret_sp {n : Nat} (h : execAll (List.replicate n .ret) s = .next t) :
    t.sp = s.sp + BitVec.ofNat 8 n := by
  have hsp : t.sp = s.sp + BitVec.ofNat 8 (List.replicate n Instr.ret).length * 1#8 := by
    refine execAll_sp_of_each (fun i hi s t ht => ?_) h
    obtain rfl := List.eq_of_mem_replicate hi
    obtain ⟨⟨-, hup⟩, -⟩ := (execGives_ret s).of_eq_next ht
    exact hup
  rw [hsp, List.length_replicate, BitVec.mul_one]

/-- A return writes no memory (R142). -/
theorem execAll_replicate_ret_memRead {n : Nat} (h : execAll (List.replicate n .ret) s = .next t)
    (c : Byte) : t.memRead c.toNat = s.memRead c.toNat := by
  refine execAll_same (p := .cell c) (fun i hi s t ht => ?_) h
  obtain rfl := List.eq_of_mem_replicate hi
  obtain ⟨-, hframe⟩ := (execGives_ret s).of_eq_next ht
  exact hframe (.cell c) (by simp)

/-- A cell with room for one more byte between it and the cell below `x`, counted upwards from `x`, is not
that cell, and has the rest of the room when counted from there (R44). -/
theorem ne_sub_one_of_toNat_sub {x c : BitVec 8} {n : Nat} (hc : (c - x).toNat + (n + 1) < 256) :
    c ≠ x - 1#8 ∧ (c - (x - 1#8)).toNat + n < 256 := by
  constructor <;> bv_omega

/-- A cell at or above `sp` keeps its byte while the calls, going down, do not come round to it. -/
theorem execAll_map_call_memRead {c : Byte} (hc : (c - s.sp).toNat + as.length < 256)
    (h : execAll (as.map .call) s = .next t) : t.memRead c.toNat = s.memRead c.toNat := by
  induction as generalizing s with
  | nil =>
    obtain rfl : s = t := Host.Outcome.next.inj h
    rfl
  | cons a as ih =>
    obtain ⟨v, hv, ht⟩ := execAll_cons_eq_next_iff.mp h
    obtain ⟨⟨hdown, -⟩, hframe⟩ := (execGives_call s a).of_eq_next hv
    rw [List.length_cons] at hc
    obtain ⟨hne, hroom⟩ := ne_sub_one_of_toNat_sub hc
    have hfirst : v.memRead c.toNat = s.memRead c.toNat :=
      hframe (.cell c) (by simpa [State.pushAddr] using hne)
    have hrest : t.memRead c.toNat = v.memRead c.toNat := ih (hdown ▸ hroom) ht
    exact hrest.trans hfirst

/-! ### Returns undo calls (R143) -/

/-- A return where a call left `sp` and the cell undoes the call. -/
theorem ret_after_call {t' : State} {a : Byte} (h : exec (.call a) s = .next t)
    (hsp : t'.sp = t.sp) (hcell : t'.memRead t'.sp.toNat = t.memRead t.sp.toNat)
    (hu : exec .ret t' = .next u) : u.pc = s.pc ∧ u.sp = s.sp := by
  obtain ⟨⟨hdown, hsaved, -⟩, -⟩ := (execGives_call s a).of_eq_next h
  obtain ⟨⟨hpc, hup⟩, -⟩ := (execGives_ret t').of_eq_next hu
  refine ⟨hpc.trans (hcell.trans hsaved), ?_⟩
  rw [hup, hsp, hdown, BitVec.sub_add_cancel]

/-- Up to 256 calls are undone by as many returns: the calls inside the outermost one do not reach its
saved byte, and their returns come back to it. -/
theorem rets_after_calls (hmax : as.length ≤ 256) (ht : execAll (as.map .call) s = .next t)
    (hu : execAll (List.replicate as.length .ret) t = .next u) : u.pc = s.pc ∧ u.sp = s.sp := by
  cases as with
  | nil =>
    obtain rfl : s = t := Host.Outcome.next.inj ht
    obtain rfl : s = u := Host.Outcome.next.inj hu
    exact ⟨rfl, rfl⟩
  | cons a as =>
    rw [List.length_cons] at hmax
    rw [List.length_cons, List.replicate_succ'] at hu
    obtain ⟨v, hv, ht⟩ := execAll_cons_eq_next_iff.mp ht
    obtain ⟨w, hw, hu⟩ := execAll_append_eq_next_iff.mp hu
    obtain ⟨u', hret, hu⟩ := execAll_cons_eq_next_iff.mp hu
    obtain rfl : u' = u := Host.Outcome.next.inj hu
    have hsp : w.sp = v.sp := by
      rw [execAll_replicate_ret_sp hw, execAll_map_call_sp ht, BitVec.sub_add_cancel]
    have hcalls : t.memRead v.sp.toNat = v.memRead v.sp.toNat :=
      execAll_map_call_memRead (by simpa using hmax) ht
    have hcell : w.memRead w.sp.toNat = v.memRead v.sp.toNat := by
      rw [hsp, execAll_replicate_ret_memRead hw, hcalls]
    exact ret_after_call hv hsp hcell hret

end

/-- Settles O42: the byte saved by the outermost of up to 256 calls stands until the last return. -/
theorem returnResumesAfterTheCall : Obligations.ReturnResumesAfterTheCall := by
  refine ⟨fun s t t' a h hstep hsp hcell => ?_, fun s as hmax => ?_⟩
  · rw [h.step_eq] at hstep
    obtain ⟨u, hu⟩ := exec_next .ret t'
    obtain ⟨hpc, hback⟩ := ret_after_call hstep hsp hcell hu
    exact ⟨u, hu, hpc.trans h.enter_pc, hback⟩
  · obtain ⟨t, ht⟩ := execAll_next (as.map .call) s
    obtain ⟨u, hu⟩ := execAll_next (List.replicate as.length .ret) t
    exact ⟨t, u, ht, execAll_map_call_sp ht, hu, rets_after_calls hmax ht hu⟩

end Sys2Proof.Machine
end

section
/-! PROOFS. The decoder and the encoder (R60 to R69): under a well-formed map an instruction is decoded from
its encoding and from nothing else, and the bytes that are no opcode are rejected by name. -/

namespace Sys2Proof

/-! ### Decoding is the inverse of encoding -/

/-- The operand bytes taken are those of the instruction. -/
theorem eq_operands_append_of_takeOperands (op : Byte) (n : Mnemonic) (bytes r : List Byte) (i : Instr)
    (h : takeOperands op n bytes = .ok (i, r)) : bytes = i.operands ++ r := by
  cases n <;> simp only [takeOperands, takeZero_eq_ok_iff, takeOne_eq_ok_iff, takeTwo_eq_ok_iff] at h
  case ret | hlt =>
    obtain ⟨rfl, rfl⟩ := h
    rfl
  case ldi | mul | add | and | cmp =>
    obtain ⟨a, b, rfl, rfl⟩ := h
    rfl
  all_goals
    obtain ⟨a, rfl, rfl⟩ := h
    rfl

theorem takeOperands_eq_ok_iff (op : Byte) (n : Mnemonic) (bytes r : List Byte) (i : Instr) :
    takeOperands op n bytes = .ok (i, r) ↔ i.mnemonic = n ∧ bytes = i.operands ++ r := by
  constructor
  · intro h
    exact ⟨takeOperands_mnemonic op n bytes r i h, eq_operands_append_of_takeOperands op n bytes r i h⟩
  · rintro ⟨rfl, rfl⟩
    exact takeOperands_operands op i r

/-- The two directions of the round trip in one: the decoder answers `i` exactly on the encoding of `i`
and whatever follows it. -/
theorem decode_eq_ok_iff {m : OpcodeMap} (hm : m.wf = true) (bytes rest : List Byte) (i : Instr) :
    decode m bytes = .ok (i, rest) ↔ bytes = encode m i ++ rest := by
  cases bytes with
  | nil => simp [decode, encode]
  | cons op bytes =>
    simp only [decode_cons_eq_ok_iff, m.find_eq_some_iff hm, takeOperands_eq_ok_iff, encode,
      List.cons_append, List.cons.injEq]
    constructor
    · rintro ⟨n, hop, rfl, hbytes⟩
      exact ⟨hop.symm, hbytes⟩
    · rintro ⟨hop, hbytes⟩
      exact ⟨i.mnemonic, hop.symm, rfl, hbytes⟩

/-- Settles O3: an encoding and what follows it are bytes of the form that decodes to the instruction. -/
theorem decodeOfEncodeIsTheInstruction : Obligations.DecodeOfEncodeIsTheInstruction :=
  fun _ i rest hm => (decode_eq_ok_iff hm _ rest i).mpr rfl

/-- Settles O4: no other bytes decode to it. -/
theorem decodedBytesAreTheEncoding : Obligations.DecodedBytesAreTheEncoding :=
  fun _ bytes rest i hm => (decode_eq_ok_iff hm bytes rest i).mp

/-! ### Bytes that are no opcode (R69) -/

/-- A byte that is no value of the map is rejected by name, whatever follows it. -/
theorem decode_unknownOpcode {m : OpcodeMap} {op : Byte} (hop : op ∉ m.values) (bytes : List Byte) :
    decode m (op :: bytes) = .error (.unknownOpcode op) := by
  rw [decode, (m.find_eq_none_iff op).mpr hop]

/-- A value of the map with two bytes after it is never rejected. -/
theorem exists_decode_eq_ok {m : OpcodeMap} {op : Byte} (hop : op ∈ m.values) (a b : Byte)
    (rest : List Byte) : ∃ i r, decode m (op :: a :: b :: rest) = .ok (i, r) := by
  obtain ⟨n, hn⟩ := Option.ne_none_iff_exists'.mp fun h => (m.find_eq_none_iff op).mp h hop
  obtain ⟨i, r, hi⟩ := takeOperands_of_two_bytes op n a b rest
  exact ⟨i, r, (decode_cons_eq_ok_iff m op _ _).mpr ⟨n, hn, hi⟩⟩

/-- Settles O6: a value of the map decodes, and every other byte is rejected by name. -/
theorem unmappedOpcodesAreRejectedByName : Obligations.UnmappedOpcodesAreRejectedByName := by
  intro m op a b rest
  refine ⟨fun hrej hop => ?_, fun hop => decode_unknownOpcode hop _⟩
  obtain ⟨i, r, hok⟩ := exists_decode_eq_ok hop a b rest
  exact nomatch hrej.symm.trans hok

/-! ### The operand count (R61, R63) -/

theorem Mnemonic.arity_le_two (n : Mnemonic) : n.arity ≤ 2 := by
  cases n <;> decide

theorem Instr.arity_le_two (i : Instr) : i.arity ≤ 2 := i.mnemonic.arity_le_two

/-- Bits 7:6 of a byte are its quotient by 64. -/
theorem arityOf_eq_div (op : Byte) : arityOf op = op.toNat / 64 := by
  have hop : op.toNat < 256 := op.toNat_lt
  have hbits : arityOf op = op.toNat / 64 % 4 := by
    rw [arityOf, BitVec.extractLsb_toNat, Nat.shiftRight_eq_div_pow]
    rfl
  omega

/-- The operand count as the spec writes it, `(ir >> 6) & 0b11`. -/
theorem arityOf_eq_shift_and (op : Byte) : arityOf op = ((op >>> 6) &&& 3#8).toNat := by
  have hop : op.toNat < 256 := op.toNat_lt
  have hand : ((op >>> 6) &&& 3#8).toNat = op.toNat / 64 % 4 := by
    rw [BitVec.toNat_and, BitVec.toNat_ushiftRight, Nat.shiftRight_eq_div_pow]
    exact Nat.and_two_pow_sub_one_eq_mod _ 2
  rw [arityOf_eq_div, hand]
  omega

/-- The operand count in the opcode of an instruction is the instruction's (R65). -/
theorem arityOf_value {m : OpcodeMap} (hm : m.wf = true) (n : Mnemonic) :
    arityOf (m.value n) = n.arity :=
  (m.wf_iff.mp hm).2 n

/-- Settles O8: the first byte decoded is the opcode, and the bytes taken after it are the operands. -/
theorem operandCountIsBitsSevenAndSix : Obligations.OperandCountIsBitsSevenAndSix := by
  intro m op rest r i hm hdec
  have hbytes := (decode_eq_ok_iff hm _ r i).mp hdec
  obtain ⟨rfl, rfl⟩ := List.cons.inj hbytes
  refine ⟨?_, i.arity_le_two, ?_⟩
  · rw [← arityOf_eq_shift_and, arityOf_value hm]
    rfl
  · exact List.length_append.trans (congrArg (· + r.length) i.operands_length)

/-! ### The standard map (R64) -/

/-- Settles O1: the decoder computes each word. -/
theorem specEncodingWordsDecode : Obligations.SpecEncodingWordsDecode := by
  unfold Obligations.SpecEncodingWordsDecode
  decide

/-- Settles O2: the encoder puts the value of R64 before the operand bytes. -/
theorem encodingsOfTheSixteenInstructions : Obligations.EncodingsOfTheSixteenInstructions := by
  intro a b
  and_intros <;> rfl

theorem mem_values_iff {m : OpcodeMap} {op : Byte} : op ∈ m.values ↔ ∃ n, m.value n = op := by
  simp [OpcodeMap.values, Mnemonic.mem_all]

/-- No well-formed map has a value that announces three operand bytes. -/
theorem toNat_lt_of_mem_values {m : OpcodeMap} (hm : m.wf = true) {op : Byte} (hop : op ∈ m.values) :
    op.toNat < 0xC0 := by
  obtain ⟨n, rfl⟩ := mem_values_iff.mp hop
  have harity := n.arity_le_two
  rw [← arityOf_value hm, arityOf_eq_div] at harity
  omega

/-- The known bytes, counted through, are the 16 values of the map. -/
theorem filter_find_perm_values {m : OpcodeMap} (hm : m.wf = true) :
    ((List.range 256).filter fun v => !(m.find (BitVec.ofNat 8 v) == none)).Perm
      (m.values.map BitVec.toNat) := by
  have hvalues : (m.values.map BitVec.toNat).Nodup :=
    (m.wf_iff.mp hm).1.map fun _ _ => BitVec.eq_of_toNat_eq
  refine (List.perm_ext_iff_of_nodup (List.nodup_range.filter _) hvalues).mpr fun v => ?_
  simp only [List.mem_filter, List.mem_range, Bool.not_eq_true', beq_eq_false_iff_ne, ne_eq,
    m.find_eq_none_iff, not_not, List.mem_map]
  constructor
  · rintro ⟨hv, hmem⟩
    exact ⟨_, hmem, (BitVec.toNat_ofNat v 8).trans (Nat.mod_eq_of_lt hv)⟩
  · rintro ⟨op, hmem, rfl⟩
    exact ⟨op.isLt, by rwa [BitVec.ofNat_toNat, BitVec.setWidth_eq]⟩

/-- Every well-formed map leaves 256 less 16 bytes unknown. -/
theorem length_filter_find_eq_none {m : OpcodeMap} (hm : m.wf = true) :
    ((List.range 256).filter fun v => m.find (BitVec.ofNat 8 v) == none).length = 240 := by
  have hknown := (filter_find_perm_values hm).length_eq
  have hall := List.length_eq_length_filter_add (l := List.range 256)
    fun v => m.find (BitVec.ofNat 8 v) == none
  have hsixteen : (m.values.map BitVec.toNat).length = 16 := rfl
  rw [List.length_range] at hall
  omega

/-- Settles O7: the 16 values are distinct, and from 0xC0 on a byte announces three operand bytes. -/
theorem twoHundredFortyBytesAreUnknown : Obligations.TwoHundredFortyBytesAreUnknown := by
  refine ⟨length_filter_find_eq_none standardOpcodes_wf, by decide, fun op hop hmem => ?_⟩
  have := toNat_lt_of_mem_values standardOpcodes_wf hmem
  omega

end Sys2Proof
end

section
/-! PROOFS. The two kinds of step under a well-formed opcode map (R81 to R86, R171, R172): the step that runs
the instruction at `pc`, and the step that takes the decode error. -/

namespace Sys2Proof.Machine

/-! ### When there is a step (R81) -/

theorem exists_step_eq_next_iff (s : State) : (∃ t, step s = .next t) ↔ s.CanStep := by
  refine Iff.trans ?_ (stopReason_eq_none_iff s)
  constructor
  · rintro ⟨t, ht⟩
    obtain ⟨hstop, -⟩ := step_cases s t ht
    exact hstop
  · intro hstop
    cases hi : s.nextInstr with
    | ok i =>
      obtain ⟨t, ht⟩ := exec_next i s.enter
      exact ⟨t, (step_ok s i hstop hi).trans ht⟩
    | error e => exact ⟨_, step_error s e hstop hi⟩

theorem canStep_of_step {s t : State} (h : step s = .next t) : s.CanStep :=
  (exists_step_eq_next_iff s).mp ⟨t, h⟩

/-- Settles O10: a step exists exactly when R81 allows one, and a state without one is its own run. -/
theorem stepExistsExactlyWhenRunning : Obligations.StepExistsExactlyWhenRunning :=
  fun s => ⟨exists_step_eq_next_iff s,
    fun h => ⟨step_fault_of_not_canStep s h, run_of_not_canStep s h⟩⟩

/-! ### The step that runs an instruction -/

section
variable {s : State} {i : Instr}

/-- The bytes from `pc` on decode to the instruction a step then runs (R83, R85). -/
theorem ready_of_decode_window {rest : List Byte} (hc : s.CanStep) (hw : s.cfg.wf = true)
    (hdec : decode s.cfg.opcodes s.window = .ok (i, rest)) : Ready s i := by
  have hbytes := (decode_eq_ok_iff hw s.window rest i).mp hdec
  have hlength : (encode s.cfg.opcodes i).length = i.arity + 1 :=
    congrArg (· + 1) i.operands_length
  refine ⟨hc, hw, ?_⟩
  rw [hbytes, ← hlength, List.take_left]

/-- With a known opcode at `pc` a step runs an instruction, whatever the bytes after it. -/
theorem exists_ready_of_mem_values (hc : s.CanStep) (hw : s.cfg.wf = true)
    (hop : s.memRead s.pc.toNat ∈ s.cfg.opcodes.values) : ∃ i, Ready s i := by
  obtain ⟨i, rest, hdec⟩ := exists_decode_eq_ok hop _ _ []
  exact ⟨i, ready_of_decode_window hc hw hdec⟩

/-- The byte at `pc` is the opcode of the instruction that is about to run. -/
theorem Ready.memRead_pc (h : Ready s i) :
    s.memRead s.pc.toNat = s.cfg.opcodes.value i.mnemonic := h.byteAt_zero

/-- The opcode at `pc` tells which mnemonic is about to run (R65, R66). -/
theorem Ready.memRead_pc_eq_iff (h : Ready s i) (n : Mnemonic) :
    s.memRead s.pc.toNat = s.cfg.opcodes.value n ↔ i.mnemonic = n := by
  rw [h.memRead_pc]
  exact ⟨s.cfg.opcodes.value_inj h.cfg_wf _ _, congrArg _⟩

theorem Ready.memRead_pc_mem_values (h : Ready s i) :
    s.memRead s.pc.toNat ∈ s.cfg.opcodes.values :=
  mem_values_iff.mpr ⟨_, h.memRead_pc.symm⟩

/-- The state a meaning sees, field by field (R82, R84, R86). -/
theorem Ready.enter_eq (h : Ready s i) :
    s.enter = { s with
      pc := s.pc + BitVec.ofNat 8 (i.arity + 1)
      ir := s.memRead s.pc.toNat
      icount := s.countAfter } := by
  rw [← h.enter_pc, ← s.enter_icount_eq_countAfter]
  rfl

/-- Settles O9: the decoded instruction is the one about to run. -/
theorem stepRunsTheDecodedInstruction : Obligations.StepRunsTheDecodedInstruction := by
  intro s i rest hc hw hdec
  have hready := ready_of_decode_window hc hw hdec
  rw [hready.step_eq, hready.enter_eq]

end

/-! ### The step that takes the decode error -/

section
variable {s : State}

theorem nextInstr_of_unknownOpcode (hop : s.memRead s.pc.toNat ∉ s.cfg.opcodes.values) :
    s.nextInstr = .error (.unknownOpcode (s.memRead s.pc.toNat)) := by
  have hdec := decode_unknownOpcode hop ([s.byteAt 1, s.byteAt 2].take (arityOf (s.byteAt 0)))
  have hfetch : decode s.cfg.opcodes s.fetchBytes =
    .error (.unknownOpcode (s.memRead s.pc.toNat)) := hdec
  rw [State.nextInstr, hfetch]

theorem step_of_unknownOpcode (hc : s.CanStep) (hop : s.memRead s.pc.toNat ∉ s.cfg.opcodes.values) :
    step s = .next s.fetch.takeDecodeError :=
  step_error s _ ((stopReason_eq_none_iff s).mpr hc) (nextInstr_of_unknownOpcode hop)

/-- Taking the decode error writes `ir`, the fault record and the count (R172). -/
theorem State.takeDecodeError_unchangedExcept (s : State) :
    UnchangedExcept [.ir, .fault, .icount] s s.fetch.takeDecodeError := by
  intro p hp
  cases p
  case ir | fault | icount => exact absurd (by simp) hp
  all_goals rfl

/-- The two kinds of step, told apart by the byte at `pc`. -/
theorem step_cases_of_wf {t : State} (hw : s.cfg.wf = true) (h : step s = .next t) :
    (∃ i, Ready s i ∧ exec i s.enter = .next t) ∨
      (s.memRead s.pc.toNat ∉ s.cfg.opcodes.values ∧ t = s.fetch.takeDecodeError) := by
  have hc := canStep_of_step h
  by_cases hop : s.memRead s.pc.toNat ∈ s.cfg.opcodes.values
  · obtain ⟨i, hi⟩ := exists_ready_of_mem_values hc hw hop
    exact .inl ⟨i, hi, hi.step_eq.symm.trans h⟩
  · rw [step_of_unknownOpcode hc hop] at h
    exact .inr ⟨hop, (Host.Outcome.next.inj h).symm⟩

/-- Every step counts itself when a limit is configured, the faulting one too (R86, R88). -/
theorem step_icount {t : State} (h : step s = .next t) : t.icount = s.countAfter := by
  rw [← s.enter_icount_eq_countAfter]
  obtain ⟨-, ⟨i, -, hi⟩ | ⟨e, -, rfl⟩⟩ := step_cases s t h
  · obtain ⟨-, -, hicount, -⟩ := exec_keeps i _ _ hi
    exact hicount
  · rfl

end

/-! ### Why there is no step -/

theorem step_of_halted {s : State} (h : s.halted = true) : step s = .fault .halted := by
  simp [step, State.stopReason, h]

theorem step_of_fault {s : State} {r : FaultRecord} (hh : s.halted = false) (hf : s.fault = some r) :
    step s = .fault (.decodeError r.opcode r.addr) := by
  simp [step, State.stopReason, hh, hf]

/-- Settles O11: the decode error is the whole of the step, and its record stops the core. -/
theorem unknownOpcodeTakesTheDecodeError : Obligations.UnknownOpcodeTakesTheDecodeError := by
  intro s hc hop
  have hstep := step_of_unknownOpcode hc hop
  obtain ⟨hhalted, -, -⟩ := hc
  exact ⟨_, hstep, rfl, rfl, step_icount hstep, s.takeDecodeError_unchangedExcept,
    step_of_fault (s := s.fetch.takeDecodeError) hhalted rfl⟩

/-- Settles O12: an instruction keeps the record, which was none, and the decode error sets it. -/
theorem onlyUnknownOpcodesFault : Obligations.OnlyUnknownOpcodesFault := by
  intro s t hw h
  obtain ⟨-, hnone, -⟩ := canStep_of_step h
  obtain ⟨i, hi, hexec⟩ | ⟨hop, rfl⟩ := step_cases_of_wf hw h
  · obtain ⟨-, hfault, -⟩ := exec_keeps i _ _ hexec
    simp [hfault, hnone, hi.memRead_pc_mem_values]
  · simp [hop]

end Sys2Proof.Machine
end

section
/-! PROOFS. Which parts each instruction writes (R12, R15, R18, R21, R22, R36, R41), and what the meanings
do not depend on (R19, R67). -/

namespace Sys2Proof.Machine

/-! ### The parts an instruction writes -/

/-- `HLT` sets the stop flag alone (R22). -/
theorem State.halt_unchangedExcept (s : State) : UnchangedExcept [.halted] s s.halt := by
  intro p hp
  cases p
  case halted => exact absurd (List.mem_singleton_self _) hp
  all_goals rfl

/-- R160. -/
theorem execGives_hlt (s : State) : ExecGives s .hlt [.halted] fun t => t.halted = true :=
  ⟨_, exec_hlt s, rfl, s.halt_unchangedExcept⟩

/-- Settles O37: `HLT` does not touch `pc`, so the step ends one byte on. -/
theorem hltSetsTheStopFlag : Obligations.HltSetsTheStopFlag :=
  fun s => ⟨execGives_hlt s,
    fun h => h.stepGives_next (l := [.halted]) (execGives_hlt s.enter) (by simp)⟩

/-- The parts the meaning of an instruction may write, at a state. -/
def State.written (s : State) : Instr → List Part
  | .ldi a _ | .mul a _ | .add a _ | .and a _ | .inc a | .dec a => [.reg (ridx a)]
  | .prn _ => [.out]
  | .cmp _ _ => [.fl]
  | .push _ => [.sp, .cell s.pushAddr]
  | .pop a => [.reg (ridx a), .sp]
  | .call _ => [.sp, .cell s.pushAddr, .pc]
  | .ret => [.pc, .sp]
  | .jmp _ | .jeq _ | .jne _ => [.pc]
  | .hlt => [.halted]

section
variable {s t : State} {i : Instr}

/-- A meaning writes no part outside its list. -/
theorem exec_unchangedExcept (h : exec i s = .next t) : UnchangedExcept (s.written i) s t := by
  cases i with
  | ldi a b => exact ((execGives_ldi s a b).of_eq_next h).2
  | prn a => exact ((execGives_prn s a).of_eq_next h).2
  | mul a b => exact ((execGives_mul s a b).of_eq_next h).2
  | add a b => exact ((execGives_add s a b).of_eq_next h).2
  | and a b => exact ((execGives_and s a b).of_eq_next h).2
  | cmp a b => exact ((execGives_cmp s a b).of_eq_next h).2
  | inc a => exact ((execGives_inc s a).of_eq_next h).2
  | dec a => exact ((execGives_dec s a).of_eq_next h).2
  | push a => exact ((execGives_push s a).of_eq_next h).2
  | pop a => exact ((execGives_pop s a).of_eq_next h).2
  | call a => exact ((execGives_call s a).of_eq_next h).2
  | ret => exact ((execGives_ret s).of_eq_next h).2
  | jmp a => exact ((execGives_jmp s a).of_eq_next h).2
  | jeq a => exact ((execGives_jeq s a).of_eq_next h).2
  | jne a => exact ((execGives_jne s a).of_eq_next h).2
  | hlt => exact ((execGives_hlt s).of_eq_next h).2

/-- A part that changed is one the instruction writes. -/
theorem mem_written_of_not_same {p : Part} (h : exec i s = .next t) (hp : ¬p.Same s t) :
    p ∈ s.written i :=
  of_not_not fun hmem => hp (exec_unchangedExcept h p hmem)

/-! ### Who writes each part -/

theorem mnemonic_of_fl_mem_written (h : Part.fl ∈ s.written i) : i.mnemonic = .cmp := by
  cases i <;> simp_all [State.written, Instr.mnemonic]

theorem mnemonic_of_sp_mem_written (h : Part.sp ∈ s.written i) :
    i.mnemonic ∈ [.push, .pop, .call, .ret] := by
  cases i <;> simp_all [State.written, Instr.mnemonic]

theorem mnemonic_of_halted_mem_written (h : Part.halted ∈ s.written i) : i.mnemonic = .hlt := by
  cases i <;> simp_all [State.written, Instr.mnemonic]

theorem mnemonic_of_out_mem_written (h : Part.out ∈ s.written i) : i.mnemonic = .prn := by
  cases i <;> simp_all [State.written, Instr.mnemonic]

theorem mnemonic_of_pc_mem_written (h : Part.pc ∈ s.written i) :
    i.mnemonic ∈ [.call, .ret, .jmp, .jeq, .jne] := by
  cases i <;> simp_all [State.written, Instr.mnemonic]

theorem mnemonic_of_cell_mem_written {a : Byte} (h : Part.cell a ∈ s.written i) :
    (i.mnemonic = .push ∨ i.mnemonic = .call) ∧ a = s.pushAddr := by
  cases i <;> simp_all [State.written, Instr.mnemonic]

theorem mnemonic_of_reg_mem_written {r : RegIdx} (h : Part.reg r ∈ s.written i) :
    i.mnemonic ∈ [.ldi, .mul, .add, .and, .inc, .dec, .pop] ∧ i.operands.head?.map ridx = some r := by
  cases i <;> simp_all [State.written, Instr.mnemonic, Instr.operands]

/-- No instruction writes `ir`, the fault record, the count, the configuration, or a cell other than the
one a push stores to. -/
theorem State.written_subset (s : State) (i : Instr) : s.written i ⊆
    [.fl, .sp, .halted, .out, .pc] ++ (List.finRange 8).map .reg ++ [.cell s.pushAddr] := by
  cases i <;> simp [State.written]

end

/-- Settles O43: a part that changed is in the list of the instruction. -/
theorem controlStateWriters : Obligations.ControlStateWriters := by
  intro i s t h
  refine ⟨fun hp => ?_, fun hp => ?_, fun hp => ?_, fun hp => ?_, fun hp => ?_, fun p hp => ?_⟩
  · exact mnemonic_of_fl_mem_written (mem_written_of_not_same (p := .fl) h hp)
  · exact mnemonic_of_sp_mem_written (mem_written_of_not_same (p := .sp) h hp)
  · exact mnemonic_of_halted_mem_written (mem_written_of_not_same (p := .halted) h hp)
  · exact mnemonic_of_out_mem_written (mem_written_of_not_same (p := .out) h hp)
  · exact mnemonic_of_pc_mem_written (mem_written_of_not_same (p := .pc) h hp)
  · exact exec_unchangedExcept h p fun hmem => hp (s.written_subset i hmem)

/-- Settles O44: the one register in the list of an instruction is that of operand A. -/
theorem registerWriters : Obligations.RegisterWriters :=
  fun _ _ _ r h hp => mnemonic_of_reg_mem_written (mem_written_of_not_same (p := .reg r) h hp)

/-! ### Memory (R41, R49) -/

/-- A memory read at any address is the read of a cell (R44). -/
theorem State.memRead_ofNat (s : State) (a : Nat) :
    s.memRead (BitVec.ofNat 8 a).toNat = s.memRead a := by
  rw [BitVec.toNat_ofNat]
  exact Memory.read_mod s.memory a

/-- Settles O45: the decode error writes no memory, and an instruction only the cell of a push. -/
theorem onlyPushAndCallWriteMemory : Obligations.OnlyPushAndCallWriteMemory := by
  intro s t a hw h hne
  obtain ⟨i, hi, hexec⟩ | ⟨-, rfl⟩ := step_cases_of_wf hw h
  · rw [← t.memRead_ofNat a, ← s.memRead_ofNat a] at hne
    obtain ⟨hmn, haddr⟩ := mnemonic_of_cell_mem_written
      (mem_written_of_not_same (p := .cell (BitVec.ofNat 8 a)) hexec hne)
    refine ⟨hmn.imp (hi.memRead_pc_eq_iff .push).mpr (hi.memRead_pc_eq_iff .call).mpr, ?_⟩
    have hnat : a % 256 = (s.sp - 1#8).toNat := (BitVec.toNat_ofNat a 8).symm.trans
      (congrArg BitVec.toNat haddr)
    rw [hnat, BitVec.toNat_sub, Nat.add_comm]
    rfl
  · exact absurd rfl hne

/-- Byte `k` of the instruction about to run is the one `k` addresses on from `pc` (R45, R83). -/
theorem Ready.encode_getElem? {s : State} {i : Instr} (h : Ready s i) {k : Nat} (hk : k ≤ i.arity) :
    (encode s.cfg.opcodes i)[k]? = some (s.memRead (s.pc + BitVec.ofNat 8 k).toNat) := by
  rw [← h.bytes, List.getElem?_take_of_lt (by omega), ← State.byteAt_eq, State.window_eq]
  have : k < 3 := by
    have := i.arity_le_two
    omega
  interval_cases k <;> rfl

/-- The cell a `PUSH` or a `CALL` stores to holds the byte stored (R130, R140). -/
theorem memRead_pushAddr_of_step {s t : State} {i : Instr} {v : Byte}
    (hv : (∃ a, i = .push a ∧ v = s.readReg (ridx a)) ∨ (∃ a, i = .call a ∧ v = s.pc + 2#8))
    (hi : Ready s i) (h : step s = .next t) : t.memRead s.pushAddr.toNat = v := by
  obtain ⟨a, rfl, rfl⟩ | ⟨a, rfl, rfl⟩ := hv
  · obtain ⟨t', ht', ⟨hsp, hcell, -⟩, -⟩ := (pushStoresBelowTheStack s a).2 hi
    obtain rfl : t' = t := Host.Outcome.next.inj (ht'.symm.trans h)
    rwa [hsp] at hcell
  · obtain ⟨t', ht', ⟨hsp, hcell, -⟩, -⟩ := (callPushesTheReturnAddress s a).2 hi
    obtain rfl : t' = t := Host.Outcome.next.inj (ht'.symm.trans h)
    rwa [hsp] at hcell

/-- Settles O47: the next step reads its bytes from the cells as the store left them. -/
theorem storedByteIsFetchedByTheNextStep : Obligations.StoredByteIsFetchedByTheNextStep := by
  intro s t i v hv hi h
  have hcell := memRead_pushAddr_of_step hv hi h
  refine ⟨fun u hpc hu => ?_, fun j k hj hk haddr => ?_⟩
  · rw [step_ir t u hu, hpc, hcell]
  · rw [hj.encode_getElem? hk, haddr, hcell]

/-! ### What the meanings do not depend on -/

/-- Settles O39: a meaning uses an operand byte only through the register it selects. -/
theorem highOperandBitsAreIgnored : Obligations.HighOperandBitsAreIgnored := by
  intro i s
  constructor
  · cases i <;> simp [Instr.canonical, Instr.wf]
  · cases i <;> simp only [Instr.canonical, exec_ldi, exec_prn, exec_mul, exec_add, exec_and, exec_cmp,
      exec_inc, exec_dec, exec_push, exec_pop, exec_call, exec_jmp, exec_jeq, exec_jne,
      ridx_canonicalOperand]

/-- Settles O46: `CMP` overwrites `fl`, the conditional jumps read bit 0, and no other meaning reads it. -/
theorem onlyEIsEverRead : Obligations.OnlyEIsEverRead := by
  intro i s v
  refine ⟨fun hcmp => ?_, fun hcmp hE => ?_⟩
  · cases i <;> simp [Instr.mnemonic] at hcmp
    rfl
  · cases i
    case cmp => exact absurd rfl hcmp
    case jeq a | jne a =>
      have hflagE : (s.setFl v).flagE = s.flagE := hE (by simp [Instr.mnemonic])
      show exec _ (s.setFl v) = _
      simp only [exec_jeq, exec_jne, hflagE]
      rfl
    all_goals rfl

end Sys2Proof.Machine
end

section
/-! PROOFS. How a run stops (R22, R34, R87 to R91): the status, the stop flag, the limit, and the end of a
run. -/

namespace Sys2Proof.Machine

/-! ### The status (R34) -/

section
variable (s : State)

theorem State.status_eq_running_iff : s.status = .running ↔ s.CanStep := by
  refine Iff.trans ?_ (stopReason_eq_none_iff s)
  unfold State.status
  split <;> simp_all

theorem State.status_eq_halted_iff : s.status = .halted ↔ s.halted = true := by
  unfold State.status State.stopReason
  cases s.halted <;> cases s.fault <;> cases s.cfg.maxInstructions <;> simp
  case false.none.some n => by_cases hlt : s.icount < n <;> simp [hlt]

theorem State.status_eq_faulted_iff : s.status = .faulted ↔ s.halted = false ∧ s.fault ≠ none := by
  unfold State.status State.stopReason
  cases s.halted <;> cases s.fault <;> cases s.cfg.maxInstructions <;> simp
  case false.none.some n => by_cases hlt : s.icount < n <;> simp [hlt]

theorem State.status_eq_limitExhausted_iff : s.status = .limitExhausted ↔
    s.halted = false ∧ s.fault = none ∧ ∃ n, s.cfg.maxInstructions = some n ∧ n ≤ s.icount := by
  unfold State.status State.stopReason
  cases s.halted <;> cases s.fault <;> cases s.cfg.maxInstructions <;> simp
  case false.none.some n => by_cases hlt : s.icount < n <;> simp [hlt, ← Nat.not_lt]

end

/-- Settles O20: the invariant takes away the states where two reasons to stop meet, and a count above
the limit. -/
theorem statusIsAFunctionOfTheState : Obligations.StatusIsAFunctionOfTheState := by
  intro s hinv
  refine ⟨s.status_eq_running_iff, s.status_eq_halted_iff, ?_, ?_⟩
  · have := hinv.stops_apart
    rw [s.status_eq_faulted_iff]
    cases hh : s.halted <;> simp_all
  · rw [s.status_eq_limitExhausted_iff]
    refine and_congr_right' (and_congr_right' ⟨?_, fun hn => ⟨_, hn, le_rfl⟩⟩)
    rintro ⟨n, hn, hle⟩
    rw [hn, le_antisymm hle (hinv.count_within n hn)]

/-! ### The stop flag (R22, R91) -/

/-- In a running state the stop flag comes up exactly by `HLT`. -/
theorem halted_of_exec_iff {s t : State} {i : Instr} (hs : s.halted = false)
    (h : exec i s = .next t) : t.halted = true ↔ i.mnemonic = .hlt := by
  constructor
  · intro ht
    have hchanged : t.halted ≠ s.halted := by simp [ht, hs]
    exact mnemonic_of_halted_mem_written (mem_written_of_not_same (p := .halted) h hchanged)
  · intro hi
    cases i <;> simp [Instr.mnemonic] at hi
    exact ((execGives_hlt s).of_eq_next h).1

/-- Settles O13: the decode error leaves the stop flag clear, and its opcode is not that of `HLT`. -/
theorem onlyHltSetsTheStopFlag : Obligations.OnlyHltSetsTheStopFlag := by
  intro s t hw h
  refine ⟨?_, fun ht => ⟨step_of_halted ht, t.status_eq_halted_iff.mpr ht⟩⟩
  obtain ⟨hrunning, -, -⟩ := canStep_of_step h
  obtain ⟨i, hi, hexec⟩ | ⟨hop, rfl⟩ := step_cases_of_wf hw h
  · exact (halted_of_exec_iff (s := s.enter) hrunning hexec).trans (hi.memRead_pc_eq_iff .hlt).symm
  · have hne : s.memRead s.pc.toNat ≠ s.cfg.opcodes.hlt :=
      fun e => hop (mem_values_iff.mpr ⟨.hlt, e.symm⟩)
    have hclear : s.fetch.takeDecodeError.halted = false := hrunning
    exact iff_of_false (hclear ▸ Bool.false_ne_true) hne

/-! ### The limit (R88) -/

theorem State.countAfter_of_limit {s : State} {n : Nat} (hn : s.cfg.maxInstructions = some n) :
    s.countAfter = s.icount + 1 := by
  rw [State.countAfter, hn]

theorem step_at_limit {s : State} (hn : s.cfg.maxInstructions = some s.icount)
    (hh : s.halted = false) (hf : s.fault = none) : step s = .fault .limitExhausted := by
  simp [step, State.stopReason, hn, hh, hf]

/-- Settles O14: the count after every step is one higher, and at the limit the core stops. -/
theorem limitStopsTheCore : Obligations.LimitStopsTheCore := by
  intro s n hn
  refine ⟨fun t h => (step_icount h).trans (State.countAfter_of_limit hn), ?_⟩
  rintro rfl hh hf
  exact ⟨step_at_limit hn hh hf, s.status_eq_limitExhausted_iff.mpr ⟨hh, hf, _, hn, le_rfl⟩⟩

/-- The machine without a limit, before its first step. -/
def State.unlimited (s : State) : State :=
  { s with cfg := { s.cfg with maxInstructions := none }, icount := 0 }

theorem exec_unlimited (i : Instr) (s : State) :
    exec i s.unlimited = onNext State.unlimited (exec i s) := by
  cases i <;> rfl

/-- A change of the state that the parts of a step carry through is carried through by the step. -/
theorem step_eq_onNext {f : State → State} {s : State} (hstop : (f s).stopReason = s.stopReason)
    (hnext : (f s).nextInstr = s.nextInstr) (henter : (f s).enter = f s.enter)
    (herror : (f s).fetch.takeDecodeError = f s.fetch.takeDecodeError)
    (hexec : ∀ i u, exec i (f u) = onNext f (exec i u)) : step (f s) = onNext f (step s) := by
  simp only [step, hstop, hnext]
  cases s.stopReason with
  | some r => rfl
  | none =>
    cases s.nextInstr with
    | ok i => exact (congrArg (exec i) henter).trans (hexec i s.enter)
    | error e => exact congrArg _ herror

/-- Settles O15: the limit is read only to decide whether there is a step. -/
theorem limitDoesNotAlterAStep : Obligations.LimitDoesNotAlterAStep := by
  intro s t h
  have hc := canStep_of_step h
  have hfree : s.unlimited.CanStep := by
    obtain ⟨hrunning, hnone, -⟩ := hc
    exact ⟨hrunning, hnone, fun _ hn => nomatch hn⟩
  have hstop : s.unlimited.stopReason = s.stopReason :=
    ((stopReason_eq_none_iff _).mpr hfree).trans ((stopReason_eq_none_iff _).mpr hc).symm
  have hstep : step s.unlimited = onNext State.unlimited (step s) :=
    step_eq_onNext hstop rfl rfl rfl exec_unlimited
  rw [h] at hstep
  exact hstep

/-! ### Runs -/

theorem run_succ_of_step {s t : State} (h : step s = .next t) (k : Nat) : run (k + 1) s = run k t := by
  rw [run, h]

/-- A run in two parts. -/
theorem run_add (j k : Nat) (s : State) : run (j + k) s = run k (run j s) := by
  induction j generalizing s with
  | zero => rw [Nat.zero_add, run]
  | succ j ih =>
    by_cases hc : s.CanStep
    · obtain ⟨t, ht⟩ := (exists_step_eq_next_iff s).mpr hc
      rw [Nat.add_right_comm, run_succ_of_step ht, run_succ_of_step ht, ih]
    · simp only [run_of_not_canStep s hc]

theorem run_cfg (k : Nat) (s : State) : (run k s).cfg = s.cfg :=
  run_induction (fun t => t.cfg = s.cfg) (fun _ _ ht h => (step_cfg _ _ h).trans ht) k s rfl

/-- With `k` steps left under the limit, `k` steps use it up. -/
theorem not_canStep_run_of_limit {n k : Nat} {s : State} (hn : s.cfg.maxInstructions = some n)
    (hk : n ≤ s.icount + k) : ¬(run k s).CanStep := by
  induction k generalizing s with
  | zero =>
    rintro ⟨-, -, hleft⟩
    have hlt : s.icount < n := hleft n hn
    omega
  | succ k ih =>
    by_cases hc : s.CanStep
    · obtain ⟨t, ht⟩ := (exists_step_eq_next_iff s).mpr hc
      have hcount := (step_icount ht).trans (State.countAfter_of_limit hn)
      rw [run_succ_of_step ht]
      exact ih ((step_cfg s t ht).symm ▸ hn) (by omega)
    · rwa [run_of_not_canStep s hc]

/-- Settles O16: the steps that are left use the limit up. -/
theorem limitBoundsEveryRun : Obligations.LimitBoundsEveryRun :=
  fun _ _ hn hle => not_canStep_run_of_limit hn (Nat.add_sub_of_le hle).ge

/-- The states of the endless jump: about to run a `JMP` to its own address, with no limit. -/
structure JumpsToItself (s : State) (a : Byte) : Prop where
  ready : Ready s (.jmp a)
  no_limit : s.cfg.maxInstructions = none
  target : s.readReg (ridx a) = s.pc

/-- The jump changes nothing that the next step reads. -/
theorem JumpsToItself.step {s t : State} {a : Byte} (h : JumpsToItself s a) (ht : step s = .next t) :
    JumpsToItself t a ∧ t.pc = s.pc := by
  obtain ⟨t', ht', hpc, -, -, hsame⟩ := (jmpGoesToTheRegister s a).2 h.ready
  obtain rfl : t' = t := Host.Outcome.next.inj (ht'.symm.trans ht)
  have hcfg : t'.cfg = s.cfg := hsame .cfg (by simp)
  have hpc : t'.pc = s.pc := hpc.trans h.target
  have hcell (b : Byte) : t'.memRead b.toNat = s.memRead b.toNat := hsame (.cell b) (by simp)
  have hwindow : t'.window = s.window := by simp only [State.window, hpc, hcell]
  obtain ⟨hhalted, hfault, -⟩ := h.ready.can_step
  refine ⟨⟨⟨⟨?_, ?_, ?_⟩, ?_, ?_⟩, ?_, ?_⟩, hpc⟩
  · exact Eq.trans (hsame .halted (by simp)) hhalted
  · exact Eq.trans (hsame .fault (by simp)) hfault
  · rw [hcfg, h.no_limit]
    exact fun _ hn => nomatch hn
  · rw [hcfg]
    exact h.ready.cfg_wf
  · rw [hwindow, hcfg]
    exact h.ready.bytes
  · rw [hcfg, h.no_limit]
  · rw [hpc, ← h.target]
    exact hsame (.reg (ridx a)) (by simp)

/-- Settles O17: being at the endless jump is kept by every step. -/
theorem jumpToItselfNeverEnds : Obligations.JumpToItselfNeverEnds := by
  intro s a hlimit hready htarget k
  obtain ⟨hjump, hpc⟩ := run_induction (fun t => JumpsToItself t a ∧ t.pc = s.pc)
    (fun _ _ ⟨hjump, hpc⟩ h => (hjump.step h).imp_right (·.trans hpc)) k s
    ⟨⟨hready, hlimit, htarget⟩, rfl⟩
  exact ⟨hjump.ready.can_step, hpc⟩

/-! ### The end of a run (R87, R89, R90) -/

/-- Of two lengths at which a run is over, the longer one gives the same state. -/
theorem run_eq_of_le {s : State} {j k : Nat} (hjk : j ≤ k) (hj : ¬(run j s).CanStep) :
    run k s = run j s := by
  obtain ⟨d, rfl⟩ := Nat.exists_eq_add_of_le hjk
  rw [run_add, run_of_not_canStep _ hj]

theorem RunEndsIn.exists_run_eq {s t : State} (h : RunEndsIn s t) :
    ∃ k, run k s = t ∧ ¬t.CanStep := by
  obtain ⟨k, hk, hstop⟩ := h
  exact ⟨k, hk, mt (stopReason_eq_none_iff t).mpr hstop⟩

theorem RunEndsIn.unique {s t u : State} (ht : RunEndsIn s t) (hu : RunEndsIn s u) : u = t := by
  obtain ⟨j, rfl, hj⟩ := ht.exists_run_eq
  obtain ⟨k, rfl, hk⟩ := hu.exists_run_eq
  rcases Nat.le_total j k with hjk | hkj
  · exact run_eq_of_le hjk hj
  · exact (run_eq_of_le hkj hk).symm

/-- Settles O21: a terminal state is not running, which leaves three statuses, and in a safe run one. -/
theorem everyRunHasAtMostOneNamedEnd : Obligations.EveryRunHasAtMostOneNamedEnd := by
  intro s t hend
  obtain ⟨k, hk, hc⟩ := hend.exists_run_eq
  have hstopped : t.status ≠ .running := mt t.status_eq_running_iff.mp hc
  refine ⟨fun u hu => hend.unique hu, ?_, fun hsafe => (hk ▸ hsafe k).resolve_left hstopped⟩
  cases hstatus : t.status with
  | running => exact absurd hstatus hstopped
  | halted => exact .inl rfl
  | faulted => exact .inr (.inl rfl)
  | limitExhausted =>
    obtain ⟨-, -, n, hn, -⟩ := t.status_eq_limitExhausted_iff.mp hstatus
    rw [← hk, run_cfg] at hn
    exact .inr (.inr ⟨rfl, by simp [hn]⟩)

end Sys2Proof.Machine
end

section
/-! PROOFS. The invariant (R28), with the canonical form of memory, at reset and under every step; and what
reset and the load leave (R27, R30, R52, R201). -/

namespace Sys2Proof.Machine

/-! ### What a meaning does to `fl` and to the memory list -/

theorem cmpFlags_legal (x y : Byte) : flLegal (cmpFlags x y) = true := by
  rw [flLegal_iff, cmpFlags_eq]
  split_ifs <;> simp

/-- Legal flags stay legal: only `CMP` writes them, and it writes one of three values (R18). -/
theorem flLegal_of_exec {i : Instr} {s t : State} (h : exec i s = .next t)
    (hfl : flLegal s.fl = true) : flLegal t.fl = true := by
  cases i
  case cmp a b =>
    cases h
    exact cmpFlags_legal _ _
  all_goals
    cases h
    exact hfl

/-- The canonical form is kept: only `PUSH` and `CALL` write memory, by the memory write (R41). -/
theorem memory_wf_of_exec {i : Instr} {s t : State} (h : exec i s = .next t)
    (hm : Memory.wf s.memory = true) : Memory.wf t.memory = true := by
  cases i
  case push | call =>
    cases h
    exact Memory.wf_write _ _ _ hm
  all_goals
    cases h
    exact hm

/-! ### The invariant -/

/-- The count stays within the limit, and at zero without one (R24, R88). -/
theorem icount_of_step {s t : State} (hinv : s.Inv) (h : step s = .next t) :
    (∀ n, t.cfg.maxInstructions = some n → t.icount ≤ n) ∧
      (t.cfg.maxInstructions = none → t.icount = 0) := by
  obtain ⟨-, -, hleft⟩ := canStep_of_step h
  rw [step_cfg s t h, step_icount h]
  constructor
  · intro n hn
    rw [State.countAfter_of_limit hn]
    exact hleft n hn
  · intro hnone
    rw [State.countAfter, hnone]
    exact hinv.count_off hnone

/-- Settles O48: an instruction keeps the fault record at none, and the decode error sets it to what it
leaves in `ir` and `pc`. -/
theorem stepKeepsTheInvariant : Obligations.StepKeepsTheInvariant := by
  intro s t hinv h
  have hcfg := step_cfg s t h
  obtain ⟨hwithin, hoff⟩ := icount_of_step hinv h
  obtain ⟨hrunning, hnone, -⟩ := canStep_of_step h
  obtain ⟨i, -, hexec⟩ | ⟨hop, rfl⟩ := step_cases_of_wf hinv.cfg_wf h
  · have hfault : t.fault = none := by
      obtain ⟨-, hkept, -⟩ := exec_keeps i _ _ hexec
      exact hkept.trans hnone
    exact {
      cfg_wf := hcfg ▸ hinv.cfg_wf
      memory_wf := memory_wf_of_exec hexec hinv.memory_wf
      fl_legal := (flLegal_iff _).mp (flLegal_of_exec hexec ((flLegal_iff _).mpr hinv.fl_legal))
      stops_apart := fun ⟨_, hfaulted⟩ => hfaulted hfault
      fault_agrees := fun r hr => nomatch hfault.symm.trans hr
      count_within := hwithin
      count_off := hoff }
  · exact {
      cfg_wf := hinv.cfg_wf
      memory_wf := hinv.memory_wf
      fl_legal := hinv.fl_legal
      stops_apart := fun ⟨hhalted, _⟩ => nomatch hrunning.symm.trans hhalted
      fault_agrees := by
        rintro r ⟨⟩
        exact ⟨rfl, rfl, hop⟩
      count_within := hwithin
      count_off := hoff }

/-- Settles O49: the values of R27, field by field. -/
theorem resetMeetsTheInvariant : Obligations.ResetMeetsTheInvariant :=
  fun c hc => {
    cfg_wf := hc
    memory_wf := Memory.wf_reset c
    fl_legal := .inl rfl
    stops_apart := fun ⟨hhalted, _⟩ => nomatch hhalted
    fault_agrees := fun _ hr => nomatch hr
    count_within := fun _ _ => Nat.zero_le _
    count_off := fun _ => rfl }

/-! ### A canonical memory is what it reads as -/

/-- An address below all those listed reads as unlisted. -/
theorem Memory.find_of_forall_lt {a : Nat} {m : Memory} (h : ∀ c ∈ m, a < c.1) :
    Memory.find a m = Memory.unlisted := by
  induction m with
  | nil => rfl
  | cons c m ih =>
    rw [Memory.find, if_neg (h c (by simp)).ne', ih fun d hd => h d (by simp [hd])]

/-- The first address of a canonical memory is listed, so another memory that reads alike does not begin
above it. -/
theorem Memory.le_of_find_eq {c d : Host.Cell} {m n : Memory} (hm : Memory.wf (c :: m) = true)
    (hn : Memory.wf (d :: n) = true)
    (h : ∀ a < 256, Memory.find a (c :: m) = Memory.find a (d :: n)) : d.1 ≤ c.1 := by
  obtain ⟨hc, hlisted, -, -⟩ := (Memory.wf_cons c m).mp hm
  obtain ⟨-, -, hrising, -⟩ := (Memory.wf_cons d n).mp hn
  by_contra! hlt
  have hunlisted : Memory.find c.1 (d :: n) = Memory.unlisted := by
    refine Memory.find_of_forall_lt fun e he => ?_
    rcases List.mem_cons.mp he with rfl | he
    · exact hlt
    · exact hlt.trans (hrising e he)
  rw [← h c.1 hc, Memory.find, if_pos rfl] at hunlisted
  exact hlisted hunlisted

/-- By the rising addresses, the heads agree and then the tails read alike. -/
theorem Memory.eq_of_find_eq {m n : Memory} (hm : Memory.wf m = true) (hn : Memory.wf n = true)
    (h : ∀ a < 256, Memory.find a m = Memory.find a n) : m = n := by
  induction m generalizing n with
  | nil =>
    cases n with
    | nil => rfl
    | cons d n =>
      obtain ⟨hd, hlisted, -, -⟩ := (Memory.wf_cons d n).mp hn
      have hread := h d.1 hd
      rw [Memory.find, Memory.find, if_pos rfl] at hread
      exact absurd hread.symm hlisted
  | cons c m ih =>
    obtain ⟨hc, hlisted, hrising, hmtail⟩ := (Memory.wf_cons c m).mp hm
    cases n with
    | nil =>
      have hread := h c.1 hc
      rw [Memory.find, Memory.find, if_pos rfl] at hread
      exact absurd hread hlisted
    | cons d n =>
      obtain ⟨-, -, hrising', hntail⟩ := (Memory.wf_cons d n).mp hn
      have haddr : c.1 = d.1 :=
        le_antisymm (Memory.le_of_find_eq hn hm fun a ha => (h a ha).symm) (Memory.le_of_find_eq hm hn h)
      have hbyte : c.2 = d.2 := by
        have hread := h c.1 hc
        rwa [Memory.find, Memory.find, if_pos rfl, if_pos haddr.symm] at hread
      have htail : m = n := by
        refine ih hmtail hntail fun a ha => ?_
        by_cases hca : c.1 = a
        · rw [Memory.find_of_forall_lt (hca ▸ hrising),
            Memory.find_of_forall_lt (hca ▸ haddr ▸ hrising')]
        · have hread := h a ha
          rwa [Memory.find, Memory.find, if_neg hca, if_neg (haddr ▸ hca)] at hread
      rw [Prod.ext haddr hbyte, htail]

/-- Settles O50: below 256 the read of a cell is the look-up in the list. -/
theorem equalReadsMeanEqualMemories : Obligations.EqualReadsMeanEqualMemories := by
  intro m n hm hn h
  refine Memory.eq_of_find_eq hm hn fun a ha => ?_
  have hread := h a ha
  rwa [Memory.read, Memory.read, Nat.mod_eq_of_lt ha] at hread

/-! ### Reset (R27, R30) -/

@[simp] theorem memRead_resetWith (c : Config) (a : Nat) : (State.resetWith c).memRead a = 0x00#8 := rfl

theorem readReg_resetWith (c : Config) (r : RegIdx) : (State.resetWith c).readReg r = 0x00#8 := by
  simp [State.readReg, State.resetWith]

/-- Settles O51: the registers and the memory by their lemmas, the other values as the model lists them. -/
theorem resetValues : Obligations.ResetValues :=
  ⟨readReg_resetWith _, memRead_resetWith _, rfl, rfl, rfl, rfl, rfl, rfl, rfl, rfl⟩

/-- Settles O52: after reset the count is 0, which only a limit of 0 does not exceed. -/
theorem resetLeavesEveryStoppedState : Obligations.ResetLeavesEveryStoppedState := by
  intro s
  refine ⟨rfl, fun ⟨_, _, hleft⟩ hzero => ?_, fun hne => ⟨rfl, rfl, fun n hn => ?_⟩⟩
  · exact absurd (hleft 0 hzero) (lt_irrefl 0)
  · have hlimit : s.cfg.maxInstructions = some n := hn
    exact Nat.pos_of_ne_zero fun h0 => hne (h0 ▸ hlimit)

/-! ### The load and the launch (R52, R201) -/

/-- From its first address on, a load that fits gives each cell its byte and keeps the rest (R52). -/
theorem State.memRead_storeFrom (bs : List Byte) {s : State} {a b : Nat} (hfit : a + bs.length ≤ 256)
    (hab : a ≤ b) (hb : b < 256) : (s.storeFrom a bs).memRead b = bs.getD (b - a) (s.memRead b) := by
  induction bs generalizing s a with
  | nil => rfl
  | cons x bs ih =>
    rw [List.length_cons] at hfit
    rw [State.storeFrom]
    rcases hab.eq_or_lt with rfl | hlt
    · rw [State.memRead_storeFrom_below _ _ _ _ (by omega) (by simp only [Config.memSize]; omega),
        State.memRead_memWrite, if_pos rfl, Nat.sub_self, List.getD_cons_zero]
    · have hindex : b - a = b - (a + 1) + 1 := by omega
      have hother : b % Config.memSize ≠ a % Config.memSize := by
        rw [Nat.mod_eq_of_lt hb, Nat.mod_eq_of_lt (hlt.trans hb)]
        exact hlt.ne'
      rw [ih (by omega) hlt, State.memRead_memWrite, if_neg hother, hindex, List.getD_cons_succ]

theorem loadImage_of_length_le {bytes : List Byte} (s : State) (h : bytes.length ≤ 256) :
    s.loadImage bytes = .ok (s.storeFrom 0 bytes) := if_pos h

theorem loadImage_of_lt_length {bytes : List Byte} (s : State) (h : 256 < bytes.length) :
    s.loadImage bytes = .error .oversize := if_neg (Nat.not_le.mpr h)

/-- Settles O53: the load stores the image from address 0 over zero memory. -/
theorem launchLoadsTheImage : Obligations.LaunchLoadsTheImage := by
  refine fun c bytes => ⟨fun h => ⟨_, loadImage_of_length_le _ h, fun a ha => ?_, ?_, ?_⟩,
    loadImage_of_lt_length _⟩
  · rw [State.memRead_storeFrom bytes (by omega) (Nat.zero_le a) ha, memRead_resetWith, Nat.sub_zero]
  · exact State.wf_storeFrom bytes _ 0 (Memory.wf_reset c)
  · exact State.storeFrom_eq bytes _ 0

/-- Settles O54: each transaction, in the phases that allow it and in those that do not. -/
theorem hostMovesFollowTheLaunchSequence : Obligations.HostMovesFollowTheLaunchSequence := by
  refine ⟨fun c bytes h => ?_, fun c bytes h => ?_, fun s => ⟨rfl, rfl⟩, fun s m => ?_⟩
  · refine ⟨_, loadImage_of_length_le _ h, ?_, rfl, fun more => rfl⟩
    simp [Session.move, loadImage_of_length_le _ h]
  · simp [Session.move, loadImage_of_lt_length _ h]
  · cases m with
    | reset => rfl
    | loadImage bytes => rfl
    | run => rfl

end Sys2Proof.Machine
end

section
/-! PROOFS. The output stream (R25, R35, R102) and the pins around the core (R35). -/

namespace Sys2Proof.Machine

/-! ### What a step appends to the output (R25) -/

section
variable {s t : State}

/-- With the opcode of `PRN` at `pc` a step runs `PRN`. -/
theorem exists_ready_prn (hc : s.CanStep) (hw : s.cfg.wf = true)
    (hop : s.memRead s.pc.toNat = s.cfg.opcodes.prn) : ∃ a, Ready s (.prn a) := by
  obtain ⟨i, hi⟩ := exists_ready_of_mem_values hc hw (mem_values_iff.mpr ⟨.prn, hop.symm⟩)
  have hmn : i.mnemonic = .prn := (hi.memRead_pc_eq_iff .prn).mp hop
  cases i <;> simp [Instr.mnemonic] at hmn
  exact ⟨_, hi⟩

/-- The operand of a `PRN` is the byte after its opcode. -/
theorem Ready.prn_operand {a : Byte} (h : Ready s (.prn a)) : a = s.memRead (s.pc + 1#8).toNat :=
  Option.some.inj (h.encode_getElem? (k := 1) le_rfl)

theorem out_of_step_prn {a : Byte} (hi : Ready s (.prn a)) (h : step s = .next t) :
    t.out = s.out ++ [s.readReg (ridx a)] := by
  obtain ⟨t', ht', ⟨hout, -⟩, -⟩ := (prnEmitsTheRegister s a).2 hi
  obtain rfl : t' = t := Host.Outcome.next.inj (ht'.symm.trans h)
  exact hout

/-- Every other step leaves the output as it is. -/
theorem out_of_step_of_ne_prn (hw : s.cfg.wf = true) (h : step s = .next t)
    (hop : s.memRead s.pc.toNat ≠ s.cfg.opcodes.prn) : t.out = s.out := by
  obtain ⟨i, hi, hexec⟩ | ⟨-, rfl⟩ := step_cases_of_wf hw h
  · by_contra hne
    exact hop ((hi.memRead_pc_eq_iff .prn).mpr
      (mnemonic_of_out_mem_written (mem_written_of_not_same (p := .out) hexec hne)))
  · rfl

end

/-- The state with values before its output stream. -/
def State.prependOut (pre : List Byte) (s : State) : State := { s with out := pre ++ s.out }

theorem exec_prependOut (pre : List Byte) (i : Instr) (s : State) :
    exec i (s.prependOut pre) = onNext (State.prependOut pre) (exec i s) := by
  cases i
  case prn a =>
    simp only [exec_prn, onNext, State.emit, State.prependOut, ← List.append_assoc]
    rfl
  all_goals rfl

/-- Settles O19: `PRN` appends its register, and no part of a step reads the stream. -/
theorem outputIsAppendOnlyAndNeverReadBack : Obligations.OutputIsAppendOnlyAndNeverReadBack := by
  refine ⟨rfl, fun s t hw h => ?_, fun s pre => ?_⟩
  · split_ifs with hop
    · obtain ⟨a, hi⟩ := exists_ready_prn (canStep_of_step h) hw hop
      rw [out_of_step_prn hi h, hi.prn_operand]
    · rw [out_of_step_of_ne_prn hw h hop, List.append_nil]
  · exact step_eq_onNext (f := State.prependOut pre) rfl rfl rfl rfl (exec_prependOut pre)

/-! ### The core under one clock (R35) -/

section
variable {b : Board} {p : PinsIn}

theorem Board.nextCore_of_rst (hr : p.rst = true) : b.nextCore p = State.resetWith b.core.cfg :=
  if_pos hr

theorem Board.nextCore_of_not_started (hr : p.rst = false) (hs : b.started = false) :
    b.nextCore p =
      if p.loadEn then b.core.memWrite p.loadAddr.toNat p.loadData else b.core := by
  simp [Board.nextCore, hr, hs]

theorem Board.nextCore_of_step {t : State} (hr : p.rst = false) (hs : b.started = true)
    (h : step b.core = .next t) : b.nextCore p = t := by
  simp [Board.nextCore, hr, hs, h]

theorem Board.nextCore_of_not_canStep (hr : p.rst = false) (hs : b.started = true)
    (hc : ¬b.core.CanStep) : b.nextCore p = b.core := by
  obtain ⟨f, hf⟩ := step_fault_of_not_canStep b.core hc
  simp [Board.nextCore, hr, hs, hf]

/-! ### The output pin -/

/-- `out_valid` shows the first value that a clock appended. -/
theorem pinsAfter_out_of_append {s t : State} {l : List Byte} (h : t.out = s.out ++ l) :
    (pinsAfter s t).out = l.head? := by
  rw [pinsAfter, h, List.drop_left]

theorem pinsAfter_out_of_same {s t : State} (h : t.out = s.out) : (pinsAfter s t).out = none :=
  pinsAfter_out_of_append (l := []) (by rw [h, List.append_nil])

/-- A reset clock clears the output, so there is nothing to show. -/
theorem Board.out_of_rst (hr : p.rst = true) : (b.clock p).2.out = none := by
  rw [Board.clock, Board.nextCore_of_rst hr]
  exact congrArg List.head? List.drop_nil

theorem Board.out_of_not_started (hr : p.rst = false) (hs : b.started = false) :
    (b.clock p).2.out = none := by
  refine pinsAfter_out_of_same ?_
  rw [Board.nextCore_of_not_started hr hs]
  split <;> rfl

theorem Board.out_of_not_canStep (hr : p.rst = false) (hs : b.started = true)
    (hc : ¬b.core.CanStep) : (b.clock p).2.out = none :=
  pinsAfter_out_of_same (by rw [Board.nextCore_of_not_canStep hr hs hc])

/-- A clock that takes a step pulses exactly when the step runs `PRN`. -/
theorem Board.out_of_canStep (hr : p.rst = false) (hs : b.started = true) (hc : b.core.CanStep)
    (hw : b.core.cfg.wf = true) (v : Byte) : (b.clock p).2.out = some v ↔
      ∃ a, Ready b.core (.prn a) ∧ v = b.core.readReg (ridx a) := by
  obtain ⟨t, ht⟩ := (exists_step_eq_next_iff b.core).mpr hc
  have hcore : b.nextCore p = t := Board.nextCore_of_step hr hs ht
  by_cases hop : b.core.memRead b.core.pc.toNat = b.core.cfg.opcodes.prn
  · obtain ⟨a, ha⟩ := exists_ready_prn hc hw hop
    have hpin : (b.clock p).2.out = some (b.core.readReg (ridx a)) :=
      pinsAfter_out_of_append (l := [_]) (hcore ▸ out_of_step_prn ha ht)
    rw [hpin, Option.some.injEq]
    constructor
    · rintro rfl
      exact ⟨a, ha, rfl⟩
    · rintro ⟨a', ha', rfl⟩
      rw [ha.prn_operand, ha'.prn_operand]
  · have hpin : (b.clock p).2.out = none :=
      pinsAfter_out_of_same (hcore ▸ out_of_step_of_ne_prn hw ht hop)
    rw [hpin]
    refine iff_of_false (Option.some_ne_none v).symm ?_
    rintro ⟨a, ha, -⟩
    exact hop ((ha.memRead_pc_eq_iff .prn).mpr rfl)

end

/-- Settles O57: reset, load and run by what the core does in the clock, and `out_valid` in each of them. -/
theorem pinsDriveTheCore : Obligations.PinsDriveTheCore := by
  refine fun b p => ⟨fun hr => ?_, fun hr hs => ?_, fun hr hs => ⟨fun t ht => ?_, fun hc => ?_⟩,
    fun hw v => ?_⟩
  · simp [Board.clock, Board.nextCore_of_rst hr, hr]
  · simp [Board.clock, Board.nextCore_of_not_started hr hs, hr, hs]
  · simp [Board.clock, Board.nextCore_of_step hr hs ht, hr, hs]
  · obtain ⟨core, started⟩ := b
    obtain rfl : started = true := hs
    simp [Board.clock, Board.nextCore_of_not_canStep hr rfl hc, hr]
  · cases hr : p.rst with
    | true => simp [Board.out_of_rst hr]
    | false =>
      cases hs : b.started with
      | false => simp [Board.out_of_not_started hr hs]
      | true =>
        by_cases hc : b.core.CanStep
        · simp [Board.out_of_canStep hr hs hc hw]
        · have hnone (a : Byte) : ¬Ready b.core (.prn a) := fun ha => hc ha.can_step
          simp [Board.out_of_not_canStep hr hs hc, hnone]

/-- Settles O58: the pins are read off the core after the clock. -/
theorem statusPinsShowTheCore : Obligations.StatusPinsShowTheCore :=
  fun _ _ => ⟨rfl, rfl, beq_iff_eq.trans (State.status_eq_limitExhausted_iff _)⟩

end Sys2Proof.Machine
end

section
/-! PROOFS. Text: the decimal lines of the output (R103) and the binary lines of an image (R74). -/

namespace Sys2Proof.Machine

/-! ### Decimal digits (R103) -/

theorem digitChar_eq (d : Nat) : digitChar d = Nat.digitChar (d % 10) := by
  have hd : d % 10 < 10 := Nat.mod_lt _ (by decide)
  unfold digitChar
  generalize d % 10 = k at hd
  interval_cases k <;> rfl

theorem toDigits_of_lt_ten {n : Nat} (hn : n < 10) : Nat.toDigits 10 n = [digitChar n] := by
  rw [Nat.toDigits_of_lt_base hn, digitChar_eq, Nat.mod_eq_of_lt hn]

theorem toDigits_of_ten_le {n : Nat} (hn : 10 ≤ n) :
    Nat.toDigits 10 n = Nat.toDigits 10 (n / 10) ++ [digitChar n] := by
  rw [Nat.toDigits_eq_if (by decide), if_neg (Nat.not_lt.mpr hn), digitChar_eq]

/-- One, two or three digits are enough for a byte. -/
theorem decimalDigits_eq (v : Byte) : decimalDigits v = Nat.toDigits 10 v.toNat := by
  have hv : v.toNat < 256 := v.toNat_lt
  unfold decimalDigits
  split_ifs with h10 h100
  · exact (toDigits_of_lt_ten h10).symm
  · rw [toDigits_of_ten_le (by omega), toDigits_of_lt_ten (by omega)]
    rfl
  · rw [toDigits_of_ten_le (by omega), toDigits_of_ten_le (by omega), toDigits_of_lt_ten (by omega),
      Nat.div_div_eq_div_mul]
    rfl

/-- Settles O55: value by value. -/
theorem outputTextIsDecimalLines : Obligations.OutputTextIsDecimalLines := by
  intro vs
  induction vs with
  | nil => rfl
  | cons v vs ih =>
    rw [renderOut, ih, decimalDigits_eq, List.flatMap_cons, List.append_assoc, List.singleton_append]

/-! ### Binary lines (R74) -/

/-- The character of a binary digit. -/
def bitChar (d : Bool) : Char := if d then '1' else '0'

/-- The number that binary digits spell, the most significant first. -/
def bitsValue (digits : List Bool) : Nat := Nat.ofDigits 2 (digits.reverse.map Bool.toNat)

theorem bitsValue_cons (d : Bool) (ds : List Bool) :
    bitsValue (d :: ds) = bitsValue ds + 2 ^ ds.length * d.toNat := by
  simp [bitsValue, Nat.ofDigits_append]

theorem binaryFrom_cons_bitChar (acc : Nat) (d : Bool) (cs : List Char) :
    binaryFrom acc (bitChar d :: cs) = binaryFrom (2 * acc + d.toNat) cs := by
  cases d <;> rfl

/-- The digits read so far stand above those still to come. -/
theorem binaryFrom_map_bitChar (acc : Nat) (digits : List Bool) :
    binaryFrom acc (digits.map bitChar) = some (2 ^ digits.length * acc + bitsValue digits) := by
  induction digits generalizing acc with
  | nil => simp [binaryFrom, bitsValue]
  | cons d ds ih =>
    rw [List.map_cons, binaryFrom_cons_bitChar, ih, bitsValue_cons, List.length_cons, pow_succ]
    congr 1
    ring

theorem parseLine_map_bitChar {digits : List Bool} (hne : digits ≠ []) (hlen : digits.length ≤ 8) :
    parseLine (digits.map bitChar) = .ok (some (BitVec.ofNat 8 (bitsValue digits))) := by
  have hfit : (digits.map bitChar).length ≤ Config.xlen := by simpa using hlen
  rw [parseLine, if_neg (by simpa using hne), if_pos hfit, binaryFrom_map_bitChar, Nat.mul_zero,
    Nat.zero_add]

theorem parseLines_cons_byte {l : List Char} {ls : List (List Char)} {b : Byte} {bs : List Byte}
    (hl : parseLine l = .ok (some b)) (hls : parseLines ls = .ok bs) :
    parseLines (l :: ls) = .ok (b :: bs) := by
  rw [parseLines, hl, hls]

theorem parseLines_cons_blank (ls : List (List Char)) : parseLines ([] :: ls) = parseLines ls := by
  have hblank : parseLine [] = .ok none := rfl
  rw [parseLines, hblank]
  cases parseLines ls <;> rfl

/-- A line of one to eight digits is one byte before those of the other lines. -/
theorem parseLines_cons_digits {digits : List Bool} {ls : List (List Char)} {bs : List Byte}
    (hne : digits ≠ []) (hlen : digits.length ≤ 8) (hls : parseLines ls = .ok bs) :
    parseLines (digits.map bitChar :: ls) = .ok (BitVec.ofNat 8 (bitsValue digits) :: bs) :=
  parseLines_cons_byte (parseLine_map_bitChar hne hlen) hls

/-! ### Eight digits of a byte -/

/-- The low `n` binary digits of a number spell it modulo `2 ^ n`. -/
theorem ofDigits_testBit (x n : Nat) :
    Nat.ofDigits 2 ((List.range n).map fun k => (x.testBit k).toNat) = x % 2 ^ n := by
  induction n with
  | zero => simp [Nat.mod_one]
  | succ n ih =>
    rw [List.range_succ, List.map_append, Nat.ofDigits_append, ih, Nat.mod_pow_succ]
    simp [Nat.toNat_testBit]

/-- The eight binary digits of a byte, the most significant first. -/
def byteBits (v : Byte) : List Bool := (List.range 8).map fun k => v.getLsbD (7 - k)

theorem bitsValue_byteBits (v : Byte) : bitsValue (byteBits v) = v.toNat := by
  have hreverse : (byteBits v).reverse.map Bool.toNat =
      (List.range 8).map fun k => (v.toNat.testBit k).toNat := rfl
  rw [bitsValue, hreverse, ofDigits_testBit]
  exact Nat.mod_eq_of_lt v.isLt

/-- One line of eight digits a byte reads back as the bytes. -/
theorem parseLines_map_byteBits (bytes : List Byte) :
    parseLines (bytes.map fun v => (byteBits v).map bitChar) = .ok bytes := by
  induction bytes with
  | nil => rfl
  | cons v bytes ih =>
    have hne : byteBits v ≠ [] := List.cons_ne_nil _ _
    have hlen : (byteBits v).length ≤ 8 := le_rfl
    have hvalue : BitVec.ofNat 8 (bitsValue (byteBits v)) = v := by
      rw [bitsValue_byteBits]
      exact BitVec.ofNat_toNat 8 v
    rw [List.map_cons, parseLines_cons_digits hne hlen ih, hvalue]

/-! ### Lines that are not binary -/

theorem binaryFrom_eq_none {line : List Char} {c : Char} (hc : c ∈ line) (h0 : c ≠ '0') (h1 : c ≠ '1')
    (acc : Nat) : binaryFrom acc line = none := by
  induction line generalizing acc with
  | nil => simp at hc
  | cons d ds ih =>
    rw [binaryFrom]
    obtain rfl | hc := List.mem_cons.mp hc
    · rw [if_neg h0, if_neg h1]
    · split_ifs
      · exact ih hc _
      · exact ih hc _
      · rfl

theorem parseLine_eq_malformed {line : List Char} {c : Char} (hc : c ∈ line) (h0 : c ≠ '0')
    (h1 : c ≠ '1') : parseLine line = .error .malformed := by
  rw [parseLine, if_neg (List.ne_nil_of_mem hc), binaryFrom_eq_none hc h0 h1]
  split <;> rfl

/-- Settles O56: a line is a byte, nothing, or malformed, and `parseLines` puts the bytes together. -/
theorem textImageReadsBack : Obligations.TextImageReadsBack := by
  refine ⟨fun bytes => ?_, fun _ _ _ => parseLines_cons_digits, parseLines_cons_blank,
    fun line c ls hc h0 h1 => ?_⟩
  · have h := parseLines_map_byteBits bytes
    simp only [byteBits, List.map_map] at h
    exact h
  · rw [parseLines, parseLine_eq_malformed hc h0 h1]

end Sys2Proof.Machine
end
